-- ==== Sys2Proof/Word.lean ====
section
/-! DEFINITION. The word types of the block and their plainest arithmetic.

Every value is an unsigned integer of a stated width or a byte sequence (spec 00_scope.md R3); bit 0 is the
least significant bit (R4); a byte sequence is a list of bytes (R5). -/

namespace Sys2Proof

/-- `u8` (R3). -/
abbrev Byte := BitVec 8

/-- `u16` (R3): LENGTH fields and checksums. -/
abbrev Half := BitVec 16

/-- `u32` (R3): the registers `CAP`, `RD`, `COUNT`, `SKIP`, the field `N` and the result `value`. -/
abbrev Word := BitVec 32

/-- The 64-bit command word `W` (R60). It crosses its port as a whole integer, without byte order (R41). -/
abbrev CmdWord := BitVec 64

end Sys2Proof
end

