-- ==== Sys2Proof/Config.lean ====
section
/-! DEFINITION. What an implementation fixes: the two parameters the spec leaves open (00_scope.md R1,
92_eei_decisions.md D6, D7). They are bodiless constants: nothing can be proved about them but the bounds of R1,
which hold by the way they are put together. -/

namespace Sys2Proof

/-- The parameters of one block (R1): "fixed for the life of one model instance". -/
structure Params where
  /-- `RB_MEM_SIZE`: bytes of ring-buffer backing storage. -/
  rbMemSize : Nat
  /-- `MAX_INPUT_LEN`: the longest data-in operand a command accepts, in bytes. -/
  maxInputLen : Nat
deriving DecidableEq, Repr

/-- The constraints of R1. -/
abbrev Params.Legal (p : Params) : Prop :=
  1 ≤ p.rbMemSize ∧ p.rbMemSize ≤ 4294967295 ∧ 1033 ≤ p.maxInputLen

/-- OPEN (R1, D7): `RB_MEM_SIZE - 1` of the block that resets. UNVERIFIED by any source, log entry 1. -/
opaque Config.rbMemSizeLessOne : Fin 4294967295

/-- OPEN (R1, D6): `MAX_INPUT_LEN - 1033` of the block that resets. UNVERIFIED by any source, log entry 1. -/
opaque Config.maxInputLenBeyond : Nat

/-- The parameters of the block that resets: every pair that R1 allows is a possible value. (The last `succ` is
written out so that "an empty DIN is not too long" evaluates although the length is open.) -/
def Config.params : Params where
  rbMemSize := Config.rbMemSizeLessOne.val + 1
  maxInputLen := Nat.succ (1032 + Config.maxInputLenBeyond)

end Sys2Proof
end

