-- ==== Sys2Proof/Syntax.lean ====
section
/-! DEFINITION. The command set: one constructor per row of spec/opcode_table.json (30_encoding.md R63), with the
fields its format uses (R62). The data-in operand `DIN` is no field of the command word (R61: "No field of the word
carries it"): it stands in the state, at the data-in port. -/

namespace Sys2Proof

/-- A command (R63). `n` is the field `N`; `type`, `seq` and `flags` are the fields `A`, `B` and `C` (R60). -/
inductive Instr where
  /-- `CRC_COMPUTE` (R103). -/
  | crcCompute
  /-- `CRC_VERIFY` (R105). -/
  | crcVerify
  /-- `RB_INIT N` (R111): `n` is the capacity. -/
  | rbInit (n : Word)
  /-- `RB_WRITE` (R112). -/
  | rbWrite
  /-- `RB_READ N` (R113): `n` is the maximum length. -/
  | rbRead (n : Word)
  /-- `RB_PEEK N` (R114): `n` is the maximum length. -/
  | rbPeek (n : Word)
  /-- `RB_AVAIL` (R115). -/
  | rbAvail
  /-- `RB_FREE` (R116). -/
  | rbFree
  /-- `P_PARSE` (R131). -/
  | pParse
  /-- `P_VALIDATE` (R132). -/
  | pValidate
  /-- `P_EXTRACT` (R133). -/
  | pExtract
  /-- `P_STREAM` (R135). -/
  | pStream
  /-- `P_SKIPCNT` (R140). -/
  | pSkipcnt
  /-- `B_BUILD TYPE, SEQ, FLAGS, N` (R161): `n` is the destination capacity. -/
  | bBuild (type seq flags : Byte) (n : Word)
  /-- `B_SERIALIZE TYPE, SEQ, FLAGS, N` (R162): `n` is the destination capacity. -/
  | bSerialize (type seq flags : Byte) (n : Word)
deriving DecidableEq, Repr

end Sys2Proof
end

