-- ==== Sys2Proof/WellFormed.lean ====
section
/-! DEFINITION. Which commands pass the checks of R64 that concern the data-in operand.

A command's fields have exactly the widths of the command word, so every value of `Instr` has an encoding; checks
1 and 2 of R64 (reserved opcode, reserved field) concern words that are no command at all and stand in Decode.lean.
What is left to check is the operand `DIN`: checks 3 and 4. -/

namespace Sys2Proof

/-- The DIN column of R63 says "must be empty". -/
def Instr.dinMustBeEmpty : Instr → Bool
  | .rbInit _ => true
  | .rbRead _ => true
  | .rbPeek _ => true
  | .rbAvail => true
  | .rbFree => true
  | .pStream => true
  | .pSkipcnt => true
  | .crcCompute => false
  | .crcVerify => false
  | .rbWrite => false
  | .pParse => false
  | .pValidate => false
  | .pExtract => false
  | .bBuild _ _ _ _ => false
  | .bSerialize _ _ _ _ => false

/-- Check 3 of R64: a no-DIN command carries no DIN. -/
abbrev WellFormed.dinAllowed (i : Instr) (din : List Byte) : Prop :=
  i.dinMustBeEmpty = true → din = []

/-- Check 4 of R64: DIN is not longer than `MAX_INPUT_LEN`. -/
abbrev WellFormed.dinFits (p : Params) (din : List Byte) : Prop :=
  din.length ≤ p.maxInputLen

/-- A command with its DIN passes checks 3 and 4 of R64. -/
abbrev WellFormed (p : Params) (i : Instr) (din : List Byte) : Prop :=
  WellFormed.dinAllowed i din ∧ WellFormed.dinFits p din

end Sys2Proof
end

