-- ==== Sys2Proof/Decode.lean ====
section
/-! DEFINITION. The command word: its fields (30_encoding.md R60), the formats (R62), the opcode map (R63), the
decoder (R64 checks 1 and 2, R68), the encoder, and the command text (R67). -/

namespace Sys2Proof

/-! ## Fields of the command word (R60) -/

/-- `OPC = W[63:56]`. -/
def CmdWord.opc (w : CmdWord) : Byte := w.extractLsb' 56 8

/-- `A = W[55:48]`: frame TYPE for the builder commands, else reserved. -/
def CmdWord.fieldA (w : CmdWord) : Byte := w.extractLsb' 48 8

/-- `B = W[47:40]`: frame SEQ for the builder commands, else reserved. -/
def CmdWord.fieldB (w : CmdWord) : Byte := w.extractLsb' 40 8

/-- `C = W[39:32]`: frame FLAGS for the builder commands, else reserved. -/
def CmdWord.fieldC (w : CmdWord) : Byte := w.extractLsb' 32 8

/-- `N = W[31:0]`. -/
def CmdWord.fieldN (w : CmdWord) : Word := w.extractLsb' 0 32

/-- The word `{OPC, A, B, C, N}` (R60, R67). -/
def CmdWord.ofFields (opc a b c : Byte) (n : Word) : CmdWord := opc ++ a ++ b ++ c ++ n

/-! ## Formats (R62) and opcodes (R63) -/

/-- The three formats of R62. -/
inductive Format where
  /-- `OPC` only. -/
  | f0
  /-- `OPC` and `N`. -/
  | fN
  /-- `OPC`, `A`, `B`, `C` and `N`. -/
  | fB
deriving DecidableEq, Repr

/-- Every field the format reserves is 0 (R62, R64 check 2). -/
def Format.reservedZero (f : Format) (a b c : Byte) (n : Word) : Bool :=
  match f with
  | .f0 => a == 0 && b == 0 && c == 0 && n == 0
  | .fN => a == 0 && b == 0 && c == 0
  | .fB => true

/-- The format column of R63. -/
def Instr.format : Instr → Format
  | .crcCompute => .f0
  | .crcVerify => .f0
  | .rbInit _ => .fN
  | .rbWrite => .f0
  | .rbRead _ => .fN
  | .rbPeek _ => .fN
  | .rbAvail => .f0
  | .rbFree => .f0
  | .pParse => .f0
  | .pValidate => .f0
  | .pExtract => .f0
  | .pStream => .f0
  | .pSkipcnt => .f0
  | .bBuild _ _ _ _ => .fB
  | .bSerialize _ _ _ _ => .fB

/-- The OPC column of R63. -/
def Instr.opcode : Instr → Byte
  | .crcCompute => 0x10
  | .crcVerify => 0x11
  | .rbInit _ => 0x20
  | .rbWrite => 0x21
  | .rbRead _ => 0x22
  | .rbPeek _ => 0x23
  | .rbAvail => 0x24
  | .rbFree => 0x25
  | .pParse => 0x30
  | .pValidate => 0x31
  | .pExtract => 0x32
  | .pStream => 0x33
  | .pSkipcnt => 0x34
  | .bBuild _ _ _ _ => 0x40
  | .bSerialize _ _ _ _ => 0x41

/-! ## Decoding (R64 checks 1 and 2, R68) -/

/-- Why a word is no command: the first check of R64 that fails. -/
inductive DecodeError where
  /-- Check 1: the opcode is in no row of R63. -/
  | reservedOpcode (opc : Byte)
  /-- Check 2: a field that the command's format reserves is not 0. -/
  | reservedField (f : Format)
deriving DecidableEq, Repr

/-- The command of the row of R63 whose opcode is `opc`, its fields taken as they are (R61). -/
def selectRow (opc a b c : Byte) (n : Word) : Option Instr :=
  match opc with
  | 0x10#8 => some .crcCompute
  | 0x11#8 => some .crcVerify
  | 0x20#8 => some (.rbInit n)
  | 0x21#8 => some .rbWrite
  | 0x22#8 => some (.rbRead n)
  | 0x23#8 => some (.rbPeek n)
  | 0x24#8 => some .rbAvail
  | 0x25#8 => some .rbFree
  | 0x30#8 => some .pParse
  | 0x31#8 => some .pValidate
  | 0x32#8 => some .pExtract
  | 0x33#8 => some .pStream
  | 0x34#8 => some .pSkipcnt
  | 0x40#8 => some (.bBuild a b c n)
  | 0x41#8 => some (.bSerialize a b c n)
  | _ => none

/-- The decoder on the fields of a word: check 1 of R64, then check 2. -/
def decodeFields (opc a b c : Byte) (n : Word) : Except DecodeError Instr :=
  match selectRow opc a b c n with
  | none => .error (.reservedOpcode opc)
  | some i => if i.format.reservedZero a b c n then .ok i else .error (.reservedField i.format)

/-- The decoder, total on every word (R68). -/
def decode (w : CmdWord) : Except DecodeError Instr := decodeFields w.opc w.fieldA w.fieldB w.fieldC w.fieldN

/-! ## Encoding, from the patterns of R62 and the map of R63 -/

/-- A word of format F0: `oooooooo` + 56 x `0`. -/
def encodeF0 (opc : Byte) : CmdWord := CmdWord.ofFields opc 0 0 0 0

/-- A word of format FN: `oooooooo` + 24 x `0` + 32 x `n`. -/
def encodeFN (opc : Byte) (n : Word) : CmdWord := CmdWord.ofFields opc 0 0 0 n

/-- A word of format FB: `oooooooo` + 8 x `t` + 8 x `s` + 8 x `f` + 32 x `n`. -/
def encodeFB (opc type seq flags : Byte) (n : Word) : CmdWord := CmdWord.ofFields opc type seq flags n

/-- The word of a command. -/
def encode : Instr → CmdWord
  | .crcCompute => encodeF0 0x10
  | .crcVerify => encodeF0 0x11
  | .rbInit n => encodeFN 0x20 n
  | .rbWrite => encodeF0 0x21
  | .rbRead n => encodeFN 0x22 n
  | .rbPeek n => encodeFN 0x23 n
  | .rbAvail => encodeF0 0x24
  | .rbFree => encodeF0 0x25
  | .pParse => encodeF0 0x30
  | .pValidate => encodeF0 0x31
  | .pExtract => encodeF0 0x32
  | .pStream => encodeF0 0x33
  | .pSkipcnt => encodeF0 0x34
  | .bBuild type seq flags n => encodeFB 0x40 type seq flags n
  | .bSerialize type seq flags n => encodeFB 0x41 type seq flags n

/-! ## Command text (R67) -/

/-- The mnemonics of R63, in upper case. -/
def Instr.mnemonic : Instr → String
  | .crcCompute => "CRC_COMPUTE"
  | .crcVerify => "CRC_VERIFY"
  | .rbInit _ => "RB_INIT"
  | .rbWrite => "RB_WRITE"
  | .rbRead _ => "RB_READ"
  | .rbPeek _ => "RB_PEEK"
  | .rbAvail => "RB_AVAIL"
  | .rbFree => "RB_FREE"
  | .pParse => "P_PARSE"
  | .pValidate => "P_VALIDATE"
  | .pExtract => "P_EXTRACT"
  | .pStream => "P_STREAM"
  | .pSkipcnt => "P_SKIPCNT"
  | .bBuild _ _ _ _ => "B_BUILD"
  | .bSerialize _ _ _ _ => "B_SERIALIZE"

/-- The word operands of a command, in the order R67 writes them: none for F0, `N` for FN, TYPE, SEQ, FLAGS and
DCAP for FB. -/
def Instr.textOperands : Instr → List Nat
  | .crcCompute => []
  | .crcVerify => []
  | .rbInit n => [n.toNat]
  | .rbWrite => []
  | .rbRead n => [n.toNat]
  | .rbPeek n => [n.toNat]
  | .rbAvail => []
  | .rbFree => []
  | .pParse => []
  | .pValidate => []
  | .pExtract => []
  | .pStream => []
  | .pSkipcnt => []
  | .bBuild type seq flags n => [type.toNat, seq.toNat, flags.toNat, n.toNat]
  | .bSerialize type seq flags n => [type.toNat, seq.toNat, flags.toNat, n.toNat]

/-- One hexadecimal digit, in upper case. -/
def hexDigit (n : Nat) : Char :=
  ['0', '1', '2', '3', '4', '5', '6', '7', '8', '9', 'A', 'B', 'C', 'D', 'E', 'F'].getD n '?'

/-- A DIN byte as R67 writes it: two hexadecimal digits. -/
def byteText (b : Byte) : String := String.ofList [hexDigit (b.toNat / 16), hexDigit (b.toNat % 16)]

/-- The text of a command with its DIN (R67): `MNEMONIC [operands] [; [DIN]]`, numbers in decimal, DIN in hex
bytes; an absent DIN operand means the empty DIN. -/
def Instr.text (i : Instr) (din : List Byte) : String :=
  String.intercalate " " ([i.mnemonic] ++
    (if i.textOperands.isEmpty then [] else [String.intercalate ", " (i.textOperands.map Nat.repr)]) ++
    (if din.isEmpty then [] else [";", "[" ++ String.intercalate " " (din.map byteText) ++ "]"]))

/-- The word for a text line with the operands `ops` (R67): `{OPC, A, B, C, N}` with unused fields 0. None where
the number of operands is not the format's or an operand does not fit its field. -/
def assemble (opc : Byte) (f : Format) (ops : List Nat) : Option CmdWord :=
  match f, ops with
  | .f0, [] => some (encodeF0 opc)
  | .fN, [n] => if n < 2 ^ 32 then some (encodeFN opc (BitVec.ofNat 32 n)) else none
  | .fB, [t, s, fl, n] =>
    if t < 2 ^ 8 ∧ s < 2 ^ 8 ∧ fl < 2 ^ 8 ∧ n < 2 ^ 32 then
      some (encodeFB opc (BitVec.ofNat 8 t) (BitVec.ofNat 8 s) (BitVec.ofNat 8 fl) (BitVec.ofNat 32 n))
    else none
  | _, _ => none

/-! ### Reading a line of command text -/

/-- The double quote. -/
def dquote : Char := Char.ofNat 34

/-- The pieces of a text between the separators `c`. -/
def splitAt (c : Char) : List Char → List (List Char)
  | [] => [[]]
  | x :: xs =>
    if x = c then [] :: splitAt c xs
    else
      match splitAt c xs with
      | [] => [[x]]
      | p :: ps => (x :: p) :: ps

/-- A text without the spaces around it. -/
def trim (l : List Char) : List Char := ((l.dropWhile (· = ' ')).reverse.dropWhile (· = ' ')).reverse

/-- The value of a digit, up to base 16, in either case. -/
def digitValue (c : Char) : Option Nat :=
  if '0' ≤ c ∧ c ≤ '9' then some (c.toNat - 48)
  else if 'A' ≤ c ∧ c ≤ 'F' then some (c.toNat - 55)
  else if 'a' ≤ c ∧ c ≤ 'f' then some (c.toNat - 87)
  else none

/-- A digit string in `base`, after the value `acc`. -/
def readDigits (base : Nat) : Nat → List Char → Option Nat
  | acc, [] => some acc
  | acc, c :: cs =>
    match digitValue c with
    | some d => if d < base then readDigits base (acc * base + d) cs else none
    | none => none

/-- A number: decimal or `0x` hex (R67). -/
def readNumber : List Char → Option Nat
  | [] => none
  | ['0', 'x'] => none
  | '0' :: 'x' :: c :: cs => readDigits 16 0 (c :: cs)
  | c :: cs => readDigits 10 0 (c :: cs)

/-- A DIN byte: two hexadecimal digits. -/
def readByte : List Char → Option Byte
  | [h, l] => (readDigits 16 0 [h, l]).map (BitVec.ofNat 8)
  | _ => none

/-- A DIN operand: hex bytes in square brackets, or an ASCII string in double quotes, which stands for its bytes. -/
def readDin (l : List Char) : Option (List Byte) :=
  match l with
  | [] => none
  | c :: cs =>
    if c = '[' ∧ cs.getLast? = some ']' then ((splitAt ' ' cs.dropLast).filter (· ≠ [])).mapM readByte
    else if c = dquote ∧ cs.getLast? = some dquote then
      cs.dropLast.mapM fun x => if x.toNat < 128 then some (BitVec.ofNat 8 x.toNat) else none
    else none

/-- The rows of R63 by mnemonic: the opcode and the format. -/
def textRows : List (String × Byte × Format) :=
  [Instr.crcCompute, .crcVerify, .rbInit 0, .rbWrite, .rbRead 0, .rbPeek 0, .rbAvail, .rbFree, .pParse, .pValidate,
    .pExtract, .pStream, .pSkipcnt, .bBuild 0 0 0 0, .bSerialize 0 0 0 0].map fun i => (i.mnemonic, i.opcode, i.format)

/-- The word of the part of a line before the semicolon. -/
def readWord (l : List Char) : Option CmdWord :=
  match textRows.find? (fun r => r.1.toList = l.takeWhile (· ≠ ' ')) with
  | none => none
  | some (_, opc, f) =>
    match trim (l.dropWhile (· ≠ ' ')) with
    | [] => assemble opc f []
    | ops => ((splitAt ',' ops).mapM fun o => readNumber (trim o)).bind (assemble opc f)

/-- A line of command text (R67): its word and its DIN; an absent DIN operand means the empty DIN. None where the
line is not of the form R67 gives. -/
def readLine (line : String) : Option (CmdWord × List Byte) :=
  let l := line.toList
  match readWord (trim (l.takeWhile (· ≠ ';'))), l.dropWhile (· ≠ ';') with
  | none, _ => none
  | some w, [] => some (w, [])
  | some w, _ :: d => (readDin (trim d)).map fun din => (w, din)

/-! ## The opcode table's numbering -/

/-- The command the decoder reads from the word whose low `nbits` bits are `w`'s, bit 0 the least significant, as
spec/opcode_table.json numbers them; the bits above are 0. No command word is longer than 64 bits (R62, R68). -/
def decodeTableWord (nbits w : Nat) : Option Instr :=
  if nbits ≤ 64 then
    match decode (BitVec.ofNat 64 (w % 2 ^ nbits)) with
    | .ok i => some i
    | .error _ => none
  else none

end Sys2Proof
end

