-- ==== Sys2Proof/Machine/State.lean ====
section
/-! DEFINITION. The state of the block (10_state.md), its ports (20_memory.md R40), the records that cross them
(R27, R29, R65), the reasons a step can stop, and the state after reset (70_reset_and_hazards.md R190). -/

namespace Sys2Proof.Machine

/-! ## Records -/

/-- The status codes of R65 by name; no other code is returned (93_implementation_defined.md I12). Their numbers are
`Status.code`. -/
inductive Status where
  /-- Success. -/
  | ok
  /-- The streaming parser's "not yet". -/
  | needMoreData
  /-- A malformed command, an illegal capacity, or an empty buffer given to a flat parse. -/
  | invalidArg
  /-- No sync pattern at the start of a flat buffer. -/
  | noSync
  /-- LENGTH missing, out of range or beyond the buffer; or a payload longer than 1024. -/
  | badLength
  /-- The stored checksum differs from the computed one. -/
  | badCrc
  /-- The destination capacity is too small for the built frame. -/
  | bufferFull
  /-- Never returned: the block does not allocate (D19). -/
  | noMemory
  /-- FLAGS bits 3:0 are not 1 in an otherwise intact frame. -/
  | badVersion
deriving DecidableEq, Repr

/-- A Frame record (R29); `frameType` is its `type`. -/
structure Frame where
  flags : Byte
  totalLength : Half
  sequence : Byte
  frameType : Byte
  payload : List Byte
  checksum : Half
deriving DecidableEq, Repr

/-- The result record of a command (R27), a field not named taking its default (R28). -/
structure Result where
  status : Status
  value : Word := 0
  dout : List Byte := []
  frame : Option Frame := none
deriving DecidableEq, Repr

/-- What happens at the block's boundary, one at a time (R45, R191). -/
inductive PortEvent where
  /-- The host presents a command word and its data-in operand (R40, R60). -/
  | command (word : CmdWord) (din : List Byte)
  /-- Reset, an event from outside the block that takes effect between two commands (R190, R191). -/
  | reset
deriving DecidableEq, Repr

/-! ## The state -/

/-- The block's registers and storage, its instance's parameters, and its ports. Plain data. -/
structure State where
  /-- The instance's parameters (R1); no step writes them. -/
  params : Params
  /-- `CAP`, the capacity in bytes (R22). -/
  cap : Word
  /-- `RD`, the storage index of the oldest unread byte (R23). -/
  rd : Word
  /-- `COUNT`, the number of unread bytes (R24). -/
  count : Word
  /-- `SKIP`, the skipped-byte counter (R25). -/
  skip : Word
  /-- `STORE` (R26): the bytes written since reset, by index, strictly rising. An index not listed holds no value. -/
  store : List Host.Cell
  /-- The command port: what is still to happen at the boundary, in the order the port accepts it (R40, R45). -/
  port : List PortEvent
  /-- The data-in port: the operand presented with the latest command (R40, R60). -/
  din : List Byte
  /-- The result port: every result record delivered, oldest first (R27, R200). -/
  results : List Result
deriving DecidableEq, Repr

/-- Why the machine stops with a fault. The block itself has no faults (R170, R200): both mark an access that the
spec's invariants (R31) rule out in every state reached from reset. -/
inductive Fault where
  /-- Raised by `memRead` and `memWrite` for an index outside `0 .. CAP-1` or outside the storage, which R6 and R26
  do not give a meaning. Safe: the model stops, in states that no run reaches. -/
  | storeIndex (a : Nat)
  /-- Raised by `memRead` for an index that no write has reached since reset: its content is unspecified and held as
  "no value" (R26). Safe: the model stops, in states that no run reaches (every occupied byte was written). -/
  | storeNoValue (a : Nat)
deriving DecidableEq, Repr

/-- Why a step has no meaning. -/
inductive Refusal where
  /-- Raised by an arm of `exec` whose command has no meaning yet; no arm of this model does. Safe. -/
  | notModelled (mnemonic : String)
deriving DecidableEq, Repr

/-! ## Reset -/

/-- The state after reset of a block with the parameters `p` (R190): the ring buffer initialized and empty, STORE
without a value anywhere. Nothing has been issued and nothing delivered (DESIGN CHOICE, log entries 2, 3, 4). -/
def State.resetWith (p : Params) : State where
  params := p
  cap := BitVec.ofNat 32 p.rbMemSize
  rd := 0
  count := 0
  skip := 0
  store := []
  port := []
  din := []
  results := []

/-- The machine right after reset, for the block's own parameters. -/
def State.reset : State := State.resetWith Config.params

end Sys2Proof.Machine
end

