-- ==== Sys2Proof/Machine/Ops.lean ====
section
/-! DEFINITION. The named operations over the storage, the ring buffer and the ports.

Storage: `MemRead` and `MemWrite` (00_scope.md R6) over STORE (10_state.md R26). Ring: `RingByte` and `Discard`
(41_ring_buffer.md R110), and the byte loops of R112 to R114. Ports: delivering a result record (R27, R28), accepting
the next event (20_memory.md R45), the reset event (70_reset_and_hazards.md R190). The block has no exceptions
(60_exceptions.md R170, R174, R175): what other machines do by taking one is here the delivery of `Result.error`. -/

namespace Sys2Proof.Machine

/-! ## The storage as data -/

/-- The byte a cell list holds at an index; none where it lists none. -/
def Memory.get? : List Host.Cell → Nat → Option Byte
  | [], _ => none
  | (k, v) :: m, a => if k = a then some v else Memory.get? m a

/-- The cell list with `b` at index `a`, kept in rising order of index. -/
def Memory.set : List Host.Cell → Nat → Byte → List Host.Cell
  | [], a, b => [(a, b)]
  | (k, v) :: m, a, b =>
    if a < k then (a, b) :: (k, v) :: m
    else if a = k then (a, b) :: m
    else (k, v) :: Memory.set m a b

/-- The canonical form: indices strictly rising. An unlisted index has no value, so no entry can equal what an
unlisted index reads as. -/
abbrev Memory.wf (m : List Host.Cell) : Prop := m.Pairwise fun x y => x.1 < y.1

/-- Index `a` is one that `MemRead` and `MemWrite` may use: `0 <= a < CAP` (R6), inside the storage (R26). -/
def storeIndexOk (s : State) (a : Nat) : Bool := decide (a < s.cap.toNat) && decide (a < s.params.rbMemSize)

/-- `MemRead(a, 1)` (R6). -/
def memRead (s : State) (a : Nat) : Except Fault Byte :=
  if storeIndexOk s a then
    match Memory.get? s.store a with
    | some b => .ok b
    | none => .error (.storeNoValue a)
  else .error (.storeIndex a)

/-- `MemWrite(a, 1, b)` (R6). -/
def memWrite (s : State) (a : Nat) (b : Byte) : Except Fault State :=
  if storeIndexOk s a then .ok { s with store := Memory.set s.store a b }
  else .error (.storeIndex a)

/-! ## The ring buffer -/

/-- The storage index `(RD + i) mod CAP` of the `i`-th oldest byte; the sum is exact, without a 32-bit wrap (R110). -/
def ringIndex (s : State) (i : Nat) : Nat := (s.rd.toNat + i) % s.cap.toNat

/-- The free space `CAP - COUNT` (R31). -/
def freeSpace (s : State) : Nat := s.cap.toNat - s.count.toNat

/-- `RingByte(i)` (R110): the `i`-th oldest unread byte. Its callers see to `i < COUNT`. -/
def ringByte (s : State) (i : Nat) : Except Fault Byte := memRead s (ringIndex s i)

/-- `[RingByte(i), ..., RingByte(i + n - 1)]` (R113, R114, R135). -/
def ringBytes (s : State) : Nat → Nat → Except Fault (List Byte)
  | _, 0 => .ok []
  | i, n + 1 =>
    match ringByte s i with
    | .error f => .error f
    | .ok b =>
      match ringBytes s (i + 1) n with
      | .error f => .error f
      | .ok bs => .ok (b :: bs)

/-- `Discard(n)` (R110): removes the `n` oldest unread bytes. Its callers see to `n <= COUNT`. -/
def discard (s : State) (n : Nat) : State :=
  { s with rd := BitVec.ofNat 32 (ringIndex s n), count := BitVec.ofNat 32 (s.count.toNat - n) }

/-- The loop of R112: writes `bs` at `(RD + j) mod CAP`, `(RD + j + 1) mod CAP`, ... in this order. -/
def ringWrite (s : State) : Nat → List Byte → Except Fault State
  | _, [] => .ok s
  | j, b :: bs =>
    match memWrite s (ringIndex s j) b with
    | .error f => .error f
    | .ok t => ringWrite t (j + 1) bs

/-! ## The ports -/

/-- The record of a command that ends with the status `st` and the defaults in every other field (R28). -/
def Result.error (st : Status) : Result := { status := st }

/-- The state once the result port has delivered `r` (R27). -/
def State.deliver (s : State) (r : Result) : State := { s with results := s.results ++ [r] }

/-- The end of a command: its state change and its one result record (R27), or the fault of an access that R6 gives
no meaning. -/
def complete (r : Except Fault (State × Result)) : Host.Outcome State Fault Refusal :=
  match r with
  | .error f => .fault f
  | .ok p => .next (p.1.deliver p.2)

/-- The port accepts the next event (R45): the event, and the state in which it is no longer pending. -/
def accept (s : State) : Option (PortEvent × State) :=
  match s.port with
  | [] => none
  | e :: rest => some (e, { s with port := rest })

/-- The operand `DIN` of the accepted command stands at the data-in port (R40). -/
def State.present (s : State) (din : List Byte) : State := { s with din := din }

/-- A word that is no command (R64 checks 1 and 2): `INVALID_ARG` and no state change. -/
def rejectWord (_ : DecodeError) (s : State) : State := s.deliver (Result.error .invalidArg)

/-- Reset (R190): the ring buffer is initialized and empty at full capacity, STORE has no value (unspecified). The
ports are the host's and keep what they hold; reset delivers no result record (log entry 8). -/
def applyReset (s : State) : State :=
  { s with cap := BitVec.ofNat 32 s.params.rbMemSize, rd := 0, count := 0, skip := 0, store := [] }

/-- No command is presented: the block does nothing and its state persists (R21, R179; DESIGN CHOICE, log entry 2). -/
def idle (s : State) : State := s

end Sys2Proof.Machine
end

