-- ==== Sys2Proof/Machine/Operands.lean ====
section
/-! DEFINITION. The operand forms of the commands (30_encoding.md R61): the data-in operand and its admission (R64
checks 3 and 4), the count `N`, and byte sequences (00_scope.md R5). -/

namespace Sys2Proof.Machine

/-! ## Byte sequences (R5) -/

/-- `d[i]`. Every use stands behind a check of `|d|`, so the default is never read. -/
def byteAt (d : List Byte) (i : Nat) : Byte := d.getD i 0

/-- `d[a..b)`. -/
def slice (d : List Byte) (a b : Nat) : List Byte := (d.take b).drop a

/-- `be16(hi, lo) = {hi, lo}`. -/
def be16 (hi lo : Byte) : Half := hi ++ lo

/-- `be16bytes(v) = [v[15:8], v[7:0]]`. -/
def be16bytes (v : Half) : List Byte := [v.extractLsb' 8 8, v.extractLsb' 0 8]

/-! ## The count operand -/

/-- `min(N, COUNT)` (R113, R114): how many unread bytes a maximum length of `n` allows. -/
def readLength (n : Word) (s : State) : Nat := min n.toNat s.count.toNat

/-- `min(|DIN|, CAP - COUNT)` (R112): how many bytes of the data-in operand fit. -/
def writeLength (s : State) : Nat := min s.din.length (freeSpace s)

/-! ## The data-in operand -/

/-- Checks 3 and 4 of R64, in this order; `noDin` says that the DIN column of R63 is "must be empty". The status of
the first check that fails, none where both pass. -/
def admission (noDin : Bool) (s : State) : Option Status :=
  if noDin && !s.din.isEmpty then some .invalidArg
  else if s.din.length ≤ s.params.maxInputLen then none
  else some .invalidArg

/-- A command: the admission checks, then its rule, which ends with a state change and a result record (R7, R27). A
command that is not admitted changes no state (R64). -/
def runCommand (noDin : Bool) (s : State) (rule : Except Fault (State × Result)) : Host.Outcome State Fault Refusal :=
  match admission noDin s with
  | some st => .next (s.deliver (Result.error st))
  | none => complete rule

end Sys2Proof.Machine
end

