-- ==== Sys2Proof/Machine/Checksum.lean ====
section
/-! DEFINITION. The checksum engine (40_checksum.md): the table, `crc16`, `crc_ok`, and the commands CRC_COMPUTE and
CRC_VERIFY. -/

namespace Sys2Proof.Machine

/-! ## The checksum function -/

/-- `CRC_POLY` (00_scope.md R2). -/
def CRC_POLY : Half := 0x1021

/-- `CRC_INIT` (R2). -/
def CRC_INIT : Half := 0xFFFF

/-- One round of R100 (and of R102): shift left, and XOR with the polynomial if bit 15 was 1. -/
def crcRound (c : Half) : Half := if c.getLsbD 15 then (c <<< 1) ^^^ CRC_POLY else c <<< 1

/-- `n` rounds. -/
def crcRounds : Nat → Half → Half
  | 0, c => c
  | n + 1, c => crcRounds n (crcRound c)

/-- `CRC_TABLE[i]` (R30, R100): the constant table. -/
def crcTable (i : Byte) : Half := crcRounds 8 (i.setWidth 16 <<< 8)

/-- The update of R101 for one byte. -/
def crcStep (reg : Half) (b : Byte) : Half := (reg <<< 8) ^^^ crcTable (reg.extractLsb' 8 8 ^^^ b)

/-- `crc16(d)` (R101), from `CRC_INIT`, no final XOR. -/
def crc16 (d : List Byte) : Half := d.foldl crcStep CRC_INIT

/-- `crc_ok(b)` (R104). -/
def crcOk (b : List Byte) : Bool :=
  if b.length < 2 then false
  else crc16 (slice b 0 (b.length - 2)) == be16 (byteAt b (b.length - 2)) (byteAt b (b.length - 1))

/-! ## Commands -/

/-- `CRC_COMPUTE` (R103). -/
def execCrcCompute (s : State) : Host.Outcome State Fault Refusal :=
  runCommand false s (.ok (s, { status := .ok, value := (crc16 s.din).setWidth 32 }))

/-- `CRC_VERIFY` (R105): a mismatch is an answer, not an error. -/
def execCrcVerify (s : State) : Host.Outcome State Fault Refusal :=
  runCommand false s (.ok (s, { status := .ok, value := if crcOk s.din then 1 else 0 }))

end Sys2Proof.Machine
end

