-- ==== Sys2Proof/Machine/Flags.lean ====
section
/-! DEFINITION. The block has no status flags and no condition codes (10_state.md R33). What stands in their place:
the status code of a result, "the only condition a host branches on" (R33, 30_encoding.md R65), and the FLAGS byte of
a frame, which is data but for its VERSION field (R71). -/

namespace Sys2Proof.Machine

/-! ## Status codes -/

/-- The number of a status code (R65). -/
def Status.code : Status → Byte
  | .ok => 0x00
  | .needMoreData => 0x01
  | .invalidArg => 0x02
  | .noSync => 0x03
  | .badLength => 0x04
  | .badCrc => 0x05
  | .bufferFull => 0x06
  | .noMemory => 0x07
  | .badVersion => 0x08

/-! ## The FLAGS byte of a frame (R71) -/

/-- Bit 7, ACK_REQUIRED: passed through. -/
def Frame.ackRequired (f : Frame) : Bool := f.flags.getLsbD 7

/-- Bit 6, FRAGMENTED: passed through. -/
def Frame.fragmented (f : Frame) : Bool := f.flags.getLsbD 6

/-- Bit 5, ENCRYPTED: passed through, a marker only. -/
def Frame.encrypted (f : Frame) : Bool := f.flags.getLsbD 5

/-- Bit 4, PRIORITY: passed through. -/
def Frame.priority (f : Frame) : Bool := f.flags.getLsbD 4

/-- Bits 3:0 of a FLAGS byte, VERSION. -/
def versionOf (flags : Byte) : BitVec 4 := flags.extractLsb' 0 4

/-- `VERSION`, the only protocol version (00_scope.md R2). -/
def VERSION : BitVec 4 := 1

/-- The FLAGS byte the builder writes: bits 7:4 as given, VERSION in bits 3:0 (43_builder.md R160). -/
def wireFlags (flags : Byte) : Byte := flags.extractLsb' 4 4 ++ VERSION

end Sys2Proof.Machine
end

