-- ==== Sys2Proof/Machine/Wire.lean ====
section
/-! DEFINITION. The wire frame (30_encoding.md R70 to R75): its constants (00_scope.md R2), the gates every parse runs
(42_parser.md R130), and the writer both builder commands share (43_builder.md R160). -/

namespace Sys2Proof.Machine

/-! ## Constants (R2) -/

/-- The first byte of the sync pattern. -/
def SYNC0 : Byte := 0xAA

/-- The second byte of the sync pattern. -/
def SYNC1 : Byte := 0x55

/-- sync(2) + flags(1) + length(2) + seq(1) + type(1). -/
def HEADER_SIZE : Nat := 7

/-- The checksum trailer. -/
def CRC_SIZE : Nat := 2

/-- The longest payload. -/
def MAX_PAYLOAD : Nat := 1024

/-- The shortest frame, with an empty payload: 9. -/
def MIN_FRAME : Nat := HEADER_SIZE + CRC_SIZE

/-- The longest frame: 1033. -/
def MAX_FRAME : Nat := HEADER_SIZE + MAX_PAYLOAD + CRC_SIZE

/-! ## Reading a frame -/

/-- A buffer starts with the sync pattern (gate 1 of R130). -/
def syncAtStart (b : List Byte) : Bool := decide (2 ≤ b.length) && byteAt b 0 == SYNC0 && byteAt b 1 == SYNC1

/-- A LENGTH outside its legal range (R72). -/
def lengthOutOfRange (l : Nat) : Bool := decide (l < MIN_FRAME) || decide (MAX_FRAME < l)

/-- The LENGTH field of a buffer that starts with a frame: bytes 3 and 4, big-endian (R72). -/
def lengthField (b : List Byte) : Half := be16 (byteAt b 3) (byteAt b 4)

/-- The Frame record of the first `l` bytes of `b` (the extraction of R130). -/
def extractFrame (b : List Byte) (l : Half) : Frame where
  flags := byteAt b 2
  totalLength := l
  sequence := byteAt b 5
  frameType := byteAt b 6
  payload := slice b HEADER_SIZE (l.toNat - CRC_SIZE)
  checksum := be16 (byteAt b (l.toNat - 2)) (byteAt b (l.toNat - 1))

/-- `FrameCheck(b)` (R130): the first gate that fails decides the status. -/
def frameCheck (b : List Byte) : Except Status Frame :=
  if b.length = 0 then .error .invalidArg
  else if !syncAtStart b then .error .noSync
  else if b.length < 5 then .error .badLength
  else if lengthOutOfRange (lengthField b).toNat || decide (b.length < (lengthField b).toNat) then .error .badLength
  else if !crcOk (slice b 0 (lengthField b).toNat) then .error .badCrc
  else if versionOf (byteAt b 2) != VERSION then .error .badVersion
  else .ok (extractFrame b (lengthField b))

/-! ## Writing a frame -/

/-- The bytes of a frame before its checksum (R160, R70); `l` is its LENGTH. -/
def frameBody (type seq flags : Byte) (payload : List Byte) (l : Half) : List Byte :=
  [SYNC0, SYNC1, wireFlags flags] ++ be16bytes l ++ [seq, type] ++ payload

/-- The LENGTH of a frame with this payload: 7 + |payload| + 2 (R160). -/
def frameLength (payload : List Byte) : Nat := HEADER_SIZE + payload.length + CRC_SIZE

/-- `WriteFrame(t, s, f, p, dcap)` (R160): payload length first, then destination capacity. -/
def writeFrame (type seq flags : Byte) (payload : List Byte) (dcap : Word) : Except Status (List Byte) :=
  if MAX_PAYLOAD < payload.length then .error .badLength
  else if dcap.toNat < frameLength payload then .error .bufferFull
  else
    .ok (frameBody type seq flags payload (BitVec.ofNat 16 (frameLength payload)) ++
      be16bytes (crc16 (frameBody type seq flags payload (BitVec.ofNat 16 (frameLength payload)))))

end Sys2Proof.Machine
end

