-- ==== Sys2Proof/Machine/Builder.lean ====
section
/-! DEFINITION. The frame builder and serializer (43_builder.md): B_BUILD and B_SERIALIZE. -/

namespace Sys2Proof.Machine

/-- The result of the writer (R161, R162): the wire frame and its length, or the failing check's status. -/
def writeResult (w : Except Status (List Byte)) : Result :=
  match w with
  | .error st => Result.error st
  | .ok out => { status := .ok, value := BitVec.ofNat 32 out.length, dout := out }

/-- `B_BUILD TYPE, SEQ, FLAGS, N` (R161); the payload is DIN. -/
def execBBuild (type seq flags : Byte) (n : Word) (s : State) : Host.Outcome State Fault Refusal :=
  runCommand false s (.ok (s, writeResult (writeFrame type seq flags s.din n)))

/-- `B_SERIALIZE TYPE, SEQ, FLAGS, N` (R162): the record's payload is DIN; its stored total_length and checksum are
not presented, the writer computes both. -/
def execBSerialize (type seq flags : Byte) (n : Word) (s : State) : Host.Outcome State Fault Refusal :=
  runCommand false s (.ok (s, writeResult (writeFrame type seq flags s.din n)))

end Sys2Proof.Machine
end

