-- ==== Sys2Proof/Machine/Parser.lean ====
section
/-! DEFINITION. The frame parser and validator (42_parser.md): P_PARSE, P_VALIDATE, P_EXTRACT over the data-in
operand, P_STREAM over the ring buffer, P_SKIPCNT. -/

namespace Sys2Proof.Machine

/-! ## Flat-buffer commands -/

/-- The result of a flat parse: the failing gate's status with the defaults, or what `onFrame` makes of the frame. -/
def flatResult (b : List Byte) (onFrame : Frame → Result) : Result :=
  match frameCheck b with
  | .error st => Result.error st
  | .ok f => onFrame f

/-- `P_PARSE` (R131). -/
def execPParse (s : State) : Host.Outcome State Fault Refusal :=
  runCommand false s (.ok (s, flatResult s.din fun f => { status := .ok, frame := some f }))

/-- `P_VALIDATE` (R132): every gate, no frame. -/
def execPValidate (s : State) : Host.Outcome State Fault Refusal :=
  runCommand false s (.ok (s, flatResult s.din fun _ => { status := .ok, value := 1 }))

/-- `P_EXTRACT` (R133): only the payload. -/
def execPExtract (s : State) : Host.Outcome State Fault Refusal :=
  runCommand false s (.ok (s, flatResult s.din fun f =>
    { status := .ok, value := BitVec.ofNat 32 f.payload.length, dout := f.payload }))

/-! ## Streaming parse -/

/-- One noise byte is discarded and counted (R134, R25). -/
def dropNoise (s : State) : State := { discard s 1 with skip := s.skip + 1 }

/-- The loop of `Scan()` (R134): `k` bytes have been discarded so far. Each pass returns or removes one byte, so
`COUNT` passes are enough: with none left `COUNT` is 0. -/
def scanLoop : Nat → State → Nat → Except Fault (Bool × Nat × State)
  | 0, s, k => .ok (false, k, s)
  | fuel + 1, s, k =>
    if s.count = 0 then .ok (false, k, s)
    else
      match ringByte s 0 with
      | .error f => .error f
      | .ok b0 =>
        if b0 ≠ SYNC0 then scanLoop fuel (dropNoise s) (k + 1)
        else if s.count = 1 then
          if s.cap = 1 then .ok (false, k + 1, dropNoise s) else .ok (false, k, s)
        else
          match ringByte s 1 with
          | .error f => .error f
          | .ok b1 => if b1 ≠ SYNC1 then scanLoop fuel (dropNoise s) (k + 1) else .ok (true, k, s)

/-- `Scan()` (R134): whether a sync pattern is at the head, the number of bytes discarded, and the state after. -/
def scan (s : State) : Except Fault (Bool × Nat × State) := scanLoop s.count.toNat s 0

/-- Not yet (R135): nothing beyond the `k` noise bytes is removed. -/
def streamWait (k : Nat) (s : State) : State × Result :=
  (s, { status := .needMoreData, value := BitVec.ofNat 32 k })

/-- A gate failed after sync (R135): only the 2 sync bytes are removed, beyond the `k` noise bytes. -/
def streamReject (k : Nat) (s : State) (st : Status) : State × Result :=
  (discard s 2, { status := st, value := BitVec.ofNat 32 (k + 2) })

/-- A frame is accepted (R135): its `l` bytes are removed, beyond the `k` noise bytes. -/
def streamAccept (k l : Nat) (s : State) (f : Frame) : State × Result :=
  (discard s l, { status := .ok, value := BitVec.ofNat 32 (k + l), frame := some f })

/-- R135 once LENGTH is visible: the length gate, the wait, then the gates of R130 on `l` peeked bytes. -/
def streamBody (k l : Nat) (s : State) : Except Fault (State × Result) :=
  if lengthOutOfRange l || decide (s.cap.toNat < l) then .ok (streamReject k s .badLength)
  else if s.count.toNat < l then .ok (streamWait k s)
  else
    match ringBytes s 0 l with
    | .error f => .error f
    | .ok fb =>
      match frameCheck fb with
      | .error st => .ok (streamReject k s st)
      | .ok f => .ok (streamAccept k l s f)

/-- R135 with a sync pattern at the head: LENGTH is visible once 5 bytes are there. -/
def streamHead (k : Nat) (s : State) : Except Fault (State × Result) :=
  if s.count.toNat < 5 then
    if s.count = s.cap then .ok (streamReject k s .badLength) else .ok (streamWait k s)
  else
    match ringByte s 3 with
    | .error f => .error f
    | .ok hi =>
      match ringByte s 4 with
      | .error f => .error f
      | .ok lo => streamBody k (be16 hi lo).toNat s

/-- The rule of `P_STREAM` (R135). -/
def pStream (s : State) : Except Fault (State × Result) :=
  match scan s with
  | .error f => .error f
  | .ok (false, k, t) => .ok (streamWait k t)
  | .ok (true, k, t) => streamHead k t

/-- `P_STREAM` (R135). -/
def execPStream (s : State) : Host.Outcome State Fault Refusal := runCommand true s (pStream s)

/-! ## Skipped-byte counter -/

/-- `P_SKIPCNT` (R140): reading does not clear SKIP. -/
def execPSkipcnt (s : State) : Host.Outcome State Fault Refusal :=
  runCommand true s (.ok (s, { status := .ok, value := s.skip }))

end Sys2Proof.Machine
end

