-- ==== Sys2Proof/Machine/Ring.lean ====
section
/-! DEFINITION. The circular byte buffer (41_ring_buffer.md): RB_INIT, RB_WRITE, RB_READ, RB_PEEK, RB_AVAIL,
RB_FREE. -/

namespace Sys2Proof.Machine

/-- A capacity that `RB_INIT` refuses (R111). -/
def badCapacity (n : Word) (s : State) : Bool := n == 0 || decide (s.params.rbMemSize < n.toNat)

/-- The ring buffer empty, with capacity `n`, SKIP cleared; STORE is not written (R111). -/
def initRing (n : Word) (s : State) : State := { s with cap := n, rd := 0, count := 0, skip := 0 }

/-- `RB_INIT N` (R111). -/
def execRbInit (n : Word) (s : State) : Host.Outcome State Fault Refusal :=
  runCommand true s (.ok (if badCapacity n s then (s, Result.error .invalidArg)
    else (initRing n s, { status := .ok })))

/-- The rule of `RB_WRITE` (R112): the leading bytes of DIN that fit, at the write index `(RD + COUNT) mod CAP`. -/
def rbWrite (s : State) : Except Fault (State × Result) :=
  match ringWrite s s.count.toNat (s.din.take (writeLength s)) with
  | .error f => .error f
  | .ok t => .ok ({ t with count := BitVec.ofNat 32 (s.count.toNat + writeLength s) },
      { status := .ok, value := BitVec.ofNat 32 (writeLength s) })

/-- `RB_WRITE` (R112): a short write is not an error. -/
def execRbWrite (s : State) : Host.Outcome State Fault Refusal := runCommand false s (rbWrite s)

/-- The bytes and the count that `RB_READ` and `RB_PEEK` return; `after` is the state they leave (R113, R114). -/
def readOut (k : Nat) (s after : State) : Except Fault (State × Result) :=
  match ringBytes s 0 k with
  | .error f => .error f
  | .ok out => .ok (after, { status := .ok, value := BitVec.ofNat 32 k, dout := out })

/-- `RB_READ N` (R113): removes the bytes it returns. -/
def execRbRead (n : Word) (s : State) : Host.Outcome State Fault Refusal :=
  runCommand true s (readOut (readLength n s) s (discard s (readLength n s)))

/-- `RB_PEEK N` (R114): removes nothing. -/
def execRbPeek (n : Word) (s : State) : Host.Outcome State Fault Refusal :=
  runCommand true s (readOut (readLength n s) s s)

/-- `RB_AVAIL` (R115). -/
def execRbAvail (s : State) : Host.Outcome State Fault Refusal :=
  runCommand true s (.ok (s, { status := .ok, value := s.count }))

/-- `RB_FREE` (R116). -/
def execRbFree (s : State) : Host.Outcome State Fault Refusal :=
  runCommand true s (.ok (s, { status := .ok, value := BitVec.ofNat 32 (freeSpace s) }))

end Sys2Proof.Machine
end

