-- ==== Sys2Proof/Machine/Dispatch.lean ====
section
/-! DEFINITION. One arm per command of R63: the meaning it calls. -/

namespace Sys2Proof.Machine

/-- The rule of a command, run on a state whose data-in port holds its operand (R7, R40). -/
def exec (i : Instr) (s : State) : Host.Outcome State Fault Refusal :=
  match i with
  | .crcCompute => Sys2Proof.Machine.execCrcCompute s
  | .crcVerify => Sys2Proof.Machine.execCrcVerify s
  | .rbInit n => Sys2Proof.Machine.execRbInit n s
  | .rbWrite => Sys2Proof.Machine.execRbWrite s
  | .rbRead n => Sys2Proof.Machine.execRbRead n s
  | .rbPeek n => Sys2Proof.Machine.execRbPeek n s
  | .rbAvail => Sys2Proof.Machine.execRbAvail s
  | .rbFree => Sys2Proof.Machine.execRbFree s
  | .pParse => Sys2Proof.Machine.execPParse s
  | .pValidate => Sys2Proof.Machine.execPValidate s
  | .pExtract => Sys2Proof.Machine.execPExtract s
  | .pStream => Sys2Proof.Machine.execPStream s
  | .pSkipcnt => Sys2Proof.Machine.execPSkipcnt s
  | .bBuild type seq flags n => Sys2Proof.Machine.execBBuild type seq flags n s
  | .bSerialize type seq flags n => Sys2Proof.Machine.execBSerialize type seq flags n s

end Sys2Proof.Machine
end

