-- ==== Sys2Proof/Machine/Step.lean ====
section
/-! DEFINITION. One step: the command port accepts one event, which runs from start to finish (20_memory.md R45). -/

namespace Sys2Proof.Machine

/-- Runs a presented word on a state whose data-in port holds its operand: the decoded command's rule, or the
rejection of a word that is no command (R64). -/
def runWord (w : CmdWord) (s : State) : Host.Outcome State Fault Refusal :=
  match decode w with
  | .ok i => exec i s
  | .error e => .next (rejectWord e s)

/-- One step (R45): the next event at the port is accepted and takes effect whole; with none pending the block does
nothing. -/
def step (s : State) : Host.Outcome State Fault Refusal :=
  match accept s with
  | none => .next (idle s)
  | some (.reset, t) => .next (applyReset t)
  | some (.command w din, t) => runWord w (t.present din)

/-- The state in which the command whose word has the low `nbits` bits of `w` (numbered as spec/opcode_table.json
numbers them), with an empty DIN, is the next event at the command port; nothing else changes. The block fetches
nothing (R21): this stands for the host issuing that command (log entry 2). -/
def State.withFetchWord (s : State) (nbits w : Nat) : State :=
  { s with port := .command (BitVec.ofNat 64 (w % 2 ^ nbits)) [] :: s.port }

end Sys2Proof.Machine
end

