-- ==== Sys2Proof/Safety.lean ====
section
/-! DEFINITION. The terms claims are stated in: the invariant of every reached state (10_state.md R31), the unread
bytes as a plain sequence (R34), the streaming parse on such a sequence (42_parser.md R134, R135), and the bit-serial
checksum (40_checksum.md R102). -/

namespace Sys2Proof.Machine

/-! ## What a state's storage holds -/

/-- The `i`-th oldest unread byte (R31), none where its index has no value. -/
def State.unreadByte (s : State) (i : Nat) : Option Byte := Memory.get? s.store (ringIndex s i)

/-- `l` is the sequence of the unread bytes, oldest first (R31, R34). -/
abbrev State.Unread (s : State) (l : List Byte) : Prop :=
  l.length = s.count.toNat ∧ ∀ i < s.count.toNat, s.unreadByte i = l[i]?

/-! ## The invariant of every reached state -/

/-- The registers are legal (R22, R23, R24, R31). -/
abbrev State.RegsLegal (s : State) : Prop :=
  1 ≤ s.cap.toNat ∧ s.cap.toNat ≤ s.params.rbMemSize ∧ s.rd.toNat < s.cap.toNat ∧ s.count.toNat ≤ s.cap.toNat

/-- The storage is in canonical form and lists only indices that exist (R26). -/
abbrev State.StoreLegal (s : State) : Prop :=
  Memory.wf s.store ∧ ∀ c ∈ s.store, c.1 < s.params.rbMemSize

/-- Every unread byte was written (R26: "only validity of written regions"). -/
abbrev State.OccupiedWritten (s : State) : Prop :=
  ∀ i < s.count.toNat, (s.unreadByte i).isSome = true

/-- The invariant: R1's constraints, R31, and the form of the storage. -/
abbrev State.Inv (s : State) : Prop :=
  s.params.Legal ∧ s.RegsLegal ∧ s.StoreLegal ∧ s.OccupiedWritten

/-- Two states that differ at most in `RD` and in `STORE`, and hold the same unread bytes in the same order: what R34
says no command sequence can tell apart. -/
abbrev State.SameView (s t : State) : Prop :=
  s.params = t.params ∧ s.cap = t.cap ∧ s.count = t.count ∧ s.skip = t.skip ∧ s.port = t.port ∧ s.din = t.din ∧
    s.results = t.results ∧ ∀ i < s.count.toNat, s.unreadByte i = t.unreadByte i

/-! ## The streaming parse on a plain sequence (R34, R134, R135) -/

/-- `Scan()` on the sequence of unread bytes: whether a sync pattern stands at the head of what is left, and how many
bytes were discarded before it. -/
def seqScan (cap : Nat) : List Byte → Bool × Nat
  | [] => (false, 0)
  | [b] => (false, if b = SYNC0 ∧ cap ≠ 1 then 0 else 1)
  | b0 :: b1 :: rest =>
    if b0 = SYNC0 ∧ b1 = SYNC1 then (true, 0)
    else ((seqScan cap (b1 :: rest)).1, (seqScan cap (b1 :: rest)).2 + 1)

/-- What one `P_STREAM` does to a sequence of unread bytes: how many noise bytes and how many bytes in all it removes,
and what it returns. -/
structure StreamOutcome where
  noise : Nat
  removed : Nat
  status : Status
  frame : Option Frame
deriving DecidableEq, Repr

/-- R135 on a sequence `h` that starts with the sync pattern, after `k` noise bytes. -/
def seqStreamHead (cap k : Nat) (h : List Byte) : StreamOutcome :=
  if h.length < 5 then
    if h.length = cap then ⟨k, k + 2, .badLength, none⟩ else ⟨k, k, .needMoreData, none⟩
  else if (be16 (byteAt h 3) (byteAt h 4)).toNat < 9 ∨ 1033 < (be16 (byteAt h 3) (byteAt h 4)).toNat ∨
      cap < (be16 (byteAt h 3) (byteAt h 4)).toNat then ⟨k, k + 2, .badLength, none⟩
  else if h.length < (be16 (byteAt h 3) (byteAt h 4)).toNat then ⟨k, k, .needMoreData, none⟩
  else
    match frameCheck (h.take (be16 (byteAt h 3) (byteAt h 4)).toNat) with
    | .error st => ⟨k, k + 2, st, none⟩
    | .ok f => ⟨k, k + (be16 (byteAt h 3) (byteAt h 4)).toNat, .ok, some f⟩

/-- `P_STREAM` on the sequence `l` of unread bytes of a buffer of capacity `cap` (R135). -/
def seqStream (cap : Nat) (l : List Byte) : StreamOutcome :=
  if (seqScan cap l).1 then seqStreamHead cap (seqScan cap l).2 (l.drop (seqScan cap l).2)
  else ⟨(seqScan cap l).2, (seqScan cap l).2, .needMoreData, none⟩

/-! ## The history of the buffer (R118) -/

/-- The unread bytes, oldest first, as a list. -/
def State.unreadList (s : State) : List Byte := (List.range s.count.toNat).filterMap s.unreadByte

/-- R118's two sequences, over the period since the last `RB_INIT` or reset: the bytes accepted by `RB_WRITE`, and the
bytes removed by `RB_READ` and `P_STREAM`. -/
structure History where
  accepted : List Byte
  removed : List Byte
deriving DecidableEq, Repr

/-- The history after the command `i` on the state `s`, with the operand `din` and the result `r`. A command that was
not admitted has `value = 0` and status `INVALID_ARG`. -/
def History.command (h : History) (i : Instr) (s : State) (din : List Byte) (r : Result) : History :=
  match i with
  | .rbInit _ => if r.status = .ok then ⟨[], []⟩ else h
  | .rbWrite => ⟨h.accepted ++ din.take r.value.toNat, h.removed⟩
  | .rbRead _ => ⟨h.accepted, h.removed ++ s.unreadList.take r.value.toNat⟩
  | .pStream => ⟨h.accepted, h.removed ++ s.unreadList.take r.value.toNat⟩
  | .crcCompute | .crcVerify | .rbPeek _ | .rbAvail | .rbFree | .pParse | .pValidate | .pExtract | .pSkipcnt
  | .bBuild _ _ _ _ | .bSerialize _ _ _ _ => h

/-- The history after a step from `s` that leaves the state `t`: the step's event is the head of `s.port`, its result
record the last of `t.results`. -/
def History.next (h : History) (s t : State) : History :=
  match s.port with
  | [] => h
  | .reset :: _ => ⟨[], []⟩
  | .command w din :: _ =>
    match decode w, t.results.getLast? with
    | .ok i, some r => h.command i s din r
    | _, _ => h

/-- R118: the second sequence is a prefix of the first, and the unread bytes are the rest, in order. -/
abbrev History.Holds (h : History) (s : State) : Prop :=
  s.Unread s.unreadList ∧ h.accepted = h.removed ++ s.unreadList

/-! ## Kinds of commands -/

/-- The commands that change no state (20_memory.md R43). -/
def changesNoState : Instr → Bool
  | .crcCompute => true
  | .crcVerify => true
  | .rbInit _ => false
  | .rbWrite => false
  | .rbRead _ => false
  | .rbPeek _ => true
  | .rbAvail => true
  | .rbFree => true
  | .pParse => true
  | .pValidate => true
  | .pExtract => true
  | .pStream => false
  | .pSkipcnt => true
  | .bBuild _ _ _ _ => true
  | .bSerialize _ _ _ _ => true

/-- The stateless commands: `CRC_*`, `P_PARSE`, `P_VALIDATE`, `P_EXTRACT`, `B_*` (60_exceptions.md R177). -/
def stateless : Instr → Bool
  | .crcCompute => true
  | .crcVerify => true
  | .rbInit _ => false
  | .rbWrite => false
  | .rbRead _ => false
  | .rbPeek _ => false
  | .rbAvail => false
  | .rbFree => false
  | .pParse => true
  | .pValidate => true
  | .pExtract => true
  | .pStream => false
  | .pSkipcnt => false
  | .bBuild _ _ _ _ => true
  | .bSerialize _ _ _ _ => true

/-! ## The bit-serial checksum (R102) -/

/-- The update of R102 for one byte: XOR into the high half, then eight rounds. -/
def crcBitStep (reg : Half) (b : Byte) : Half := crcRounds 8 (reg ^^^ (b.setWidth 16 <<< 8))

/-- The bit-serial form of `crc16` (R102). -/
def crc16BitSerial (d : List Byte) : Half := d.foldl crcBitStep CRC_INIT

end Sys2Proof.Machine
end

