-- ==== Sys2Proof/Certificates/Slice0/Obligations.lean ====
section
/-! DEFINITION. The statements about the block, from the numbered rules of spec/. Each says which rule it formalises.
A result record is written with the fields a rule names; the others take the defaults of R28. -/

open Sys2Proof Sys2Proof.Machine

/-! ## Encoding (30_encoding.md part A) -/

/-- R60 to R63: the decoder reads back every command, with every operand, from its word. -/
def Obligations.DecodeEncodeRoundTrip : Prop := ∀ i : Instr, decode (encode i) = .ok i

/-- R60 to R63, R68: a word that decodes is the word of that command, so no bit of it is ignored. -/
def Obligations.EncodeDecodeRoundTrip : Prop := ∀ (w : CmdWord) (i : Instr), decode w = .ok i → encode i = w

/-- R63, with the words that R67 and 95_test_vectors.md write out. -/
def Obligations.SampleWordsDecode : Prop :=
  decode 0x1000000000000000 = .ok .crcCompute ∧
  decode 0x2000000000000040 = .ok (.rbInit 64) ∧
  decode 0x22000000FFFFFFFF = .ok (.rbRead 0xFFFFFFFF) ∧
  decode 0x3300000000000000 = .ok .pStream ∧
  decode 0x40102A8100000010 = .ok (.bBuild 0x10 0x2A 0x81 16) ∧
  decode 0x410301110000000C = .ok (.bSerialize 0x03 0x01 0x11 12)

/-- spec/opcode_table.json: a word matches a row's match under its mask exactly when it decodes to the row's command. -/
def Obligations.OpcodeTableRowsMatch : Prop :=
  ∀ w : CmdWord,
    (w &&& 0xFFFFFFFFFFFFFFFF = 0x1000000000000000 ↔ decode w = .ok .crcCompute) ∧
    (w &&& 0xFFFFFFFFFFFFFFFF = 0x1100000000000000 ↔ decode w = .ok .crcVerify) ∧
    (w &&& 0xFFFFFFFF00000000 = 0x2000000000000000 ↔ ∃ n, decode w = .ok (.rbInit n)) ∧
    (w &&& 0xFFFFFFFFFFFFFFFF = 0x2100000000000000 ↔ decode w = .ok .rbWrite) ∧
    (w &&& 0xFFFFFFFF00000000 = 0x2200000000000000 ↔ ∃ n, decode w = .ok (.rbRead n)) ∧
    (w &&& 0xFFFFFFFF00000000 = 0x2300000000000000 ↔ ∃ n, decode w = .ok (.rbPeek n)) ∧
    (w &&& 0xFFFFFFFFFFFFFFFF = 0x2400000000000000 ↔ decode w = .ok .rbAvail) ∧
    (w &&& 0xFFFFFFFFFFFFFFFF = 0x2500000000000000 ↔ decode w = .ok .rbFree) ∧
    (w &&& 0xFFFFFFFFFFFFFFFF = 0x3000000000000000 ↔ decode w = .ok .pParse) ∧
    (w &&& 0xFFFFFFFFFFFFFFFF = 0x3100000000000000 ↔ decode w = .ok .pValidate) ∧
    (w &&& 0xFFFFFFFFFFFFFFFF = 0x3200000000000000 ↔ decode w = .ok .pExtract) ∧
    (w &&& 0xFFFFFFFFFFFFFFFF = 0x3300000000000000 ↔ decode w = .ok .pStream) ∧
    (w &&& 0xFFFFFFFFFFFFFFFF = 0x3400000000000000 ↔ decode w = .ok .pSkipcnt) ∧
    (w &&& 0xFF00000000000000 = 0x4000000000000000 ↔ ∃ t s f n, decode w = .ok (.bBuild t s f n)) ∧
    (w &&& 0xFF00000000000000 = 0x4100000000000000 ↔ ∃ t s f n, decode w = .ok (.bSerialize t s f n))

/-- R67: the word for a text line is `{OPC, A, B, C, N}` with unused fields 0. -/
def Obligations.TextOperandsAssemble : Prop :=
  ∀ i : Instr, assemble i.opcode i.format i.textOperands = some (encode i)

/-! ## The port: admission, the step, reset -/

/-- R64: the four checks, in terms of the word's bits; a command that fails one gives `INVALID_ARG` and changes no
state; a command that passes every check runs its rule. -/
def Obligations.AdmissionChecks : Prop :=
  ∀ (s : State) (w : CmdWord) (din : List Byte) (rest : List PortEvent), s.port = .command w din :: rest →
    let opc := w.toNat / 2 ^ 56
    let f0 := [0x10, 0x11, 0x21, 0x24, 0x25, 0x30, 0x31, 0x32, 0x33, 0x34]
    let fN := [0x20, 0x22, 0x23]
    let fB := [0x40, 0x41]
    let fails := opc ∉ f0 ++ fN ++ fB ∨
      (opc ∈ f0 ∧ w.toNat % 2 ^ 56 ≠ 0) ∨ (opc ∈ fN ∧ w.toNat / 2 ^ 32 % 2 ^ 24 ≠ 0) ∨
      (opc ∈ [0x20, 0x22, 0x23, 0x24, 0x25, 0x33, 0x34] ∧ din ≠ []) ∨ s.params.maxInputLen < din.length
    (fails → step s = .next { s with
      port := rest, din := din, results := s.results ++ [{ status := .invalidArg }] }) ∧
    (¬fails → ∃ i, decode w = .ok i ∧ WellFormed s.params i din ∧
      step s = exec i { s with port := rest, din := din })

/-- R7, R45: a step at a command that decodes is that command's rule, run on the state in which the command is no
longer pending and its operand stands at the data-in port. -/
def Obligations.StepRunsDecodedCommand : Prop :=
  ∀ (s : State) (w : CmdWord) (din : List Byte) (rest : List PortEvent) (i : Instr),
    s.port = .command w din :: rest → decode w = .ok i → step s = exec i { s with port := rest, din := din }

/-- The command that `withFetchWord` presents is the one the next step runs, with an empty DIN (log entry 2). -/
def Obligations.PresentedWordRunsNext : Prop :=
  ∀ (s : State) (i : Instr), step (s.withFetchWord 64 (encode i).toNat) = exec i { s with din := [] }

/-- With no command presented a step changes nothing: the model's choice (log entry 2), from R21's "It runs one command
each time the host issues one". -/
def Obligations.IdleStepChangesNothing : Prop := ∀ s : State, s.port = [] → step s = .next s

/-- R190: the state after reset, of the reset state (for every pair of parameters R1 allows, those of `State.reset` among
them) and after a reset event; it is the state `RB_INIT` with `N = RB_MEM_SIZE` leaves. STORE is unspecified, and
nothing is said of it. -/
def Obligations.ResetLeavesEmptyBuffer : Prop :=
  (∀ p : Params, p.Legal →
    (State.resetWith p).params = p ∧ (State.resetWith p).cap.toNat = p.rbMemSize ∧ (State.resetWith p).rd = 0 ∧
      (State.resetWith p).count = 0 ∧ (State.resetWith p).skip = 0) ∧
  (∃ p : Params, p.Legal ∧ State.reset = State.resetWith p) ∧
  ∀ (s u : State) (rest : List PortEvent) (n : Word), s.params.Legal → s.port = .reset :: rest →
    u.din = [] → u.params = s.params → n.toNat = s.params.rbMemSize →
    ∃ t v, step s = .next t ∧ t.params = s.params ∧ t.cap = n ∧ t.rd = 0 ∧ t.count = 0 ∧ t.skip = 0 ∧
      exec (.rbInit n) u = .next v ∧ v.cap = t.cap ∧ v.rd = t.rd ∧ v.count = t.count ∧ v.skip = t.skip

/-- A reset event is taken and delivers no result record; the ports keep what they hold: the model's choice (log entry
8), since R190 lists only the block's own state. -/
def Obligations.ResetEventKeepsPorts : Prop :=
  ∀ (s t : State) (rest : List PortEvent), s.port = .reset :: rest → step s = .next t →
    t.port = rest ∧ t.din = s.din ∧ t.results = s.results

/-- R45: a command sees nothing of the commands after it. The first events of a longer sequence run as they run alone,
and what is left is the rest of the sequence from the state they leave. -/
def Obligations.LaterCommandsInvisible : Prop :=
  ∀ (s t : State) (es more : List PortEvent), s.port = es →
    Host.Core.run Sys2Proof.core es.length s = .next t →
    Host.Core.run Sys2Proof.core es.length { s with port := es ++ more } = .next { t with port := more }

/-! ## Whole-machine rules -/

/-- R31: the reset state satisfies the invariant, for every pair of parameters R1 allows. -/
def Obligations.ResetInvariant : Prop :=
  (∀ p : Params, p.Legal → (State.resetWith p).Inv) ∧ State.reset.Inv

/-- R31: every step keeps the invariant: `1 <= CAP <= RB_MEM_SIZE`, `RD < CAP`, `COUNT <= CAP`, the storage in canonical
form inside `RB_MEM_SIZE`, every unread byte written, the parameters legal. -/
def Obligations.StepKeepsInvariant : Prop := ∀ s t : State, s.Inv → step s = .next t → t.Inv

/-- R47, R170, R200: every step from a state that satisfies the invariant completes; nothing faults, nothing waits. -/
def Obligations.StepAlwaysCompletes : Prop := ∀ s : State, s.Inv → ∃ t, step s = .next t

/-- R200: a run of any sequence of events from reset never faults, and each event is taken. -/
def Obligations.RunsFromResetComplete : Prop :=
  ∀ (p : Params) (es : List PortEvent), p.Legal →
    ∃ t, Host.Core.run Sys2Proof.core es.length { State.resetWith p with port := es } = .next t ∧ t.port = [] ∧ t.Inv

/-- R27: every command, a rejected one too, returns exactly one result record; no command reads the records of those
before it. -/
def Obligations.OneResultPerCommand : Prop :=
  ∀ (s t : State) (w : CmdWord) (din : List Byte) (rest : List PortEvent),
    s.port = .command w din :: rest → step s = .next t →
    ∃ r : Result, t.results = s.results ++ [r] ∧
      ∀ earlier : List Result, step { s with results := earlier } = .next { t with results := earlier ++ [r] }

/-- R28, R66: a result field that the command's rule does not name takes its default; a status other than `OK` comes
with the defaults in every other field, but for the count of `P_STREAM`. -/
def Obligations.UnnamedResultFieldsDefault : Prop :=
  ∀ (i : Instr) (s t : State) (r : Result), exec i s = .next t → t.results = s.results ++ [r] →
    (r.status ≠ .ok → r.dout = [] ∧ r.frame = none ∧ (i ≠ .pStream → r.value = 0)) ∧
    ((¬∃ n, i = .rbRead n ∨ i = .rbPeek n) → i ≠ .pExtract →
      (¬∃ ty sq fl n, i = .bBuild ty sq fl n ∨ i = .bSerialize ty sq fl n) → r.dout = []) ∧
    (i ≠ .pParse → i ≠ .pStream → r.frame = none) ∧
    ((i = .pParse ∨ ∃ n, i = .rbInit n) → r.value = 0)

/-- R65: the numbers of the status codes, and which commands return each; `NO_MEMORY` is never returned. -/
def Obligations.StatusCodesReturned : Prop :=
  (Status.ok.code = 0x00 ∧ Status.needMoreData.code = 0x01 ∧ Status.invalidArg.code = 0x02 ∧
    Status.noSync.code = 0x03 ∧ Status.badLength.code = 0x04 ∧ Status.badCrc.code = 0x05 ∧
    Status.bufferFull.code = 0x06 ∧ Status.noMemory.code = 0x07 ∧ Status.badVersion.code = 0x08) ∧
  ∀ (i : Instr) (s t : State) (r : Result), exec i s = .next t → t.results = s.results ++ [r] →
    let flat := i = .pParse ∨ i = .pValidate ∨ i = .pExtract
    let builder := ∃ ty sq fl n, i = .bBuild ty sq fl n ∨ i = .bSerialize ty sq fl n
    (r.status = .needMoreData → i = .pStream) ∧
    (r.status = .invalidArg → ¬WellFormed s.params i s.din ∨ flat ∨ ∃ n, i = .rbInit n) ∧
    (r.status = .noSync → flat) ∧
    (r.status = .badLength → flat ∨ i = .pStream ∨ builder) ∧
    (r.status = .badCrc → flat ∨ i = .pStream) ∧
    (r.status = .bufferFull → builder) ∧
    r.status ≠ .noMemory ∧
    (r.status = .badVersion → flat ∨ i = .pStream)

/-- R170: a command that returns an error changes no state, with one exception, a failing `P_STREAM`. -/
def Obligations.ErrorsChangeNoState : Prop :=
  ∀ (i : Instr) (s t : State) (r : Result), exec i s = .next t → t.results = s.results ++ [r] →
    r.status ≠ .ok → i ≠ .pStream → t = { s with results := s.results ++ [r] }

/-- 10_state.md sections 2 to 4 and 10: which commands write which state. No command writes the parameters, the command
port or the data-in port, and none but `RB_WRITE` writes STORE. -/
def Obligations.StateWriters : Prop :=
  ∀ (i : Instr) (s t : State), exec i s = .next t →
    (t.cap ≠ s.cap → ∃ n, i = .rbInit n) ∧
    (t.rd ≠ s.rd → i = .pStream ∨ ∃ n, i = .rbInit n ∨ i = .rbRead n) ∧
    (t.count ≠ s.count → i = .rbWrite ∨ i = .pStream ∨ ∃ n, i = .rbInit n ∨ i = .rbRead n) ∧
    (t.skip ≠ s.skip → i = .pStream ∨ ∃ n, i = .rbInit n) ∧
    (t.store ≠ s.store → i = .rbWrite) ∧
    t.params = s.params ∧ t.port = s.port ∧ t.din = s.din

/-- R43: these commands change no state: each leaves every register, every byte of STORE and every port as it was, but
for the one record it delivers. Repeated with the same operands they return the same result. -/
def Obligations.ReadOnlyCommandsChangeNothing : Prop :=
  ∀ (i : Instr) (s t : State), changesNoState i = true → exec i s = .next t →
    (∃ r, t = { s with results := s.results ++ [r] } ∧ exec i t = .next { t with results := t.results ++ [r] }) ∧
    ∀ a, Memory.get? t.store a = Memory.get? s.store a

/-- The frame of `RB_INIT` (R111), `RB_READ` (R113) and `P_STREAM` (R135): STORE is not written, nor is what else the
rule does not name. -/
def Obligations.CursorCommandsFrame : Prop :=
  ∀ (s t : State),
    (∀ n, exec (.rbInit n) s = .next t →
      t.params = s.params ∧ t.store = s.store ∧ t.port = s.port ∧ t.din = s.din) ∧
    (∀ n, exec (.rbRead n) s = .next t →
      t.params = s.params ∧ t.cap = s.cap ∧ t.skip = s.skip ∧ t.store = s.store ∧ t.port = s.port ∧ t.din = s.din) ∧
    (exec .pStream s = .next t →
      t.params = s.params ∧ t.cap = s.cap ∧ t.store = s.store ∧ t.port = s.port ∧ t.din = s.din)

/-- The frame of `RB_WRITE` (R112): only `COUNT` changes among the registers, and every byte of STORE outside the `n`
indices after the write index, `(RD + COUNT + i) mod CAP` for `i < n`, `n` the number of bytes that fit, is as before. -/
def Obligations.RbWriteFrame : Prop :=
  ∀ (s t : State), exec .rbWrite s = .next t →
    t.params = s.params ∧ t.cap = s.cap ∧ t.rd = s.rd ∧ t.skip = s.skip ∧ t.port = s.port ∧ t.din = s.din ∧
      ∀ a, (∀ i < writeLength s, a ≠ ringIndex s (s.count.toNat + i)) →
        Memory.get? t.store a = Memory.get? s.store a

/-- R1: the parameters are fixed for the life of the instance. -/
def Obligations.ParametersNeverChange : Prop := ∀ s t : State, step s = .next t → t.params = s.params

/-- R34: two states that differ at most in `RD` and in STORE outside what they hold unread, with the same unread bytes
in the same order, take the same step: the same results, and again two such states. -/
def Obligations.CursorAndStaleBytesUnobservable : Prop :=
  ∀ s t s' : State, s.Inv → t.Inv → s.SameView t → step s = .next s' → ∃ t', step t = .next t' ∧ s'.SameView t'

/-- R177: a stateless command's result depends on its word and its DIN alone (and on the instance's parameters), so it
is the same in every interleaving. -/
def Obligations.StatelessResultsIndependent : Prop :=
  ∀ (i : Instr) (s t : State), stateless i = true → s.din = t.din → s.params = t.params →
    ∃ r, exec i s = .next { s with results := s.results ++ [r] } ∧
      exec i t = .next { t with results := t.results ++ [r] }

/-! ## Checksum engine (40_checksum.md) -/

/-- R100: entry `i` is eight rounds from `i << 8`, each a shift by one and, where bit 15 was 1, an XOR with `0x1021`;
with the entries 95_test_vectors.md 2.1 lists. -/
def Obligations.CrcTableEntries : Prop :=
  (∀ i : Byte, crcTable i =
    (fun c : Half => if 2 ^ 15 ≤ c.toNat then BitVec.ofNat 16 (c.toNat * 2 % 2 ^ 16) ^^^ 0x1021
      else BitVec.ofNat 16 (c.toNat * 2 % 2 ^ 16))^[8] (BitVec.ofNat 16 (i.toNat * 256))) ∧
  [0x00, 0x01, 0x12, 0x55, 0x57, 0x80, 0x89, 0x92, 0xA0, 0xE4, 0xFF].map crcTable =
    [0x0000, 0x1021, 0x3273, 0x0A50, 0x2A12, 0x9188, 0x00A1, 0xA3FB, 0xB5EA, 0xBDAA, 0x1EF0]

/-- R101: the checksum of no bytes is the initial value, and each further byte updates the register through the
table. -/
def Obligations.CrcTableDrivenUpdate : Prop :=
  crc16 [] = 0xFFFF ∧
  ∀ (d : List Byte) (b : Byte),
    crc16 (d ++ [b]) = (crc16 d <<< 8) ^^^ crcTable ((crc16 d >>> 8).setWidth 8 ^^^ b)

/-- R102: the table-driven checksum equals the bit-serial one on every input. -/
def Obligations.CrcEqualsBitSerial : Prop := ∀ d : List Byte, crc16 d = crc16BitSerial d

/-- R106: flipping any one bit of a byte sequence whose checksum is valid makes it invalid, wherever the bit stands. -/
def Obligations.CrcDetectsSingleBitFlip : Prop :=
  ∀ (b : List Byte), crcOk b = true → ∀ (i : Nat) (hi : i < b.length) (k : Nat), k < 8 →
    crcOk (b.set i (b[i] ^^^ (1 <<< k))) = false

/-- R103: `CRC_COMPUTE`, its encoding, its result on every DIN it accepts, its refusal of a longer one, its corner
cases and its example. -/
def Obligations.CrcComputeResult : Prop :=
  decode 0x1000000000000000 = .ok .crcCompute ∧
  (∀ s : State, s.din.length ≤ s.params.maxInputLen →
    exec .crcCompute s = .next { s with
      results := s.results ++ [{ status := .ok, value := (crc16 s.din).setWidth 32 }] }) ∧
  (∀ s : State, s.params.maxInputLen < s.din.length →
    exec .crcCompute s = .next { s with results := s.results ++ [{ status := .invalidArg }] }) ∧
  crc16 [] = 0xFFFF ∧ (∀ b : Byte, crc16 [b] = 0xFF00 ^^^ crcTable (0xFF ^^^ b)) ∧
  crc16 [0x31, 0x32, 0x33, 0x34, 0x35, 0x36, 0x37, 0x38, 0x39] = 0x29B1

/-- R104, R105: `CRC_VERIFY`, its encoding, its answer on every DIN it accepts, its refusal of a longer one. -/
def Obligations.CrcVerifyResult : Prop :=
  decode 0x1100000000000000 = .ok .crcVerify ∧
  (∀ b : List Byte, crcOk b = true ↔
    2 ≤ b.length ∧ crc16 (b.take (b.length - 2)) =
      BitVec.ofNat 16 ((b.getD (b.length - 2) 0).toNat * 256 + (b.getD (b.length - 1) 0).toNat)) ∧
  ∀ s : State,
    (s.din.length ≤ s.params.maxInputLen →
      (crcOk s.din = true → exec .crcVerify s = .next { s with
        results := s.results ++ [{ status := .ok, value := 1 }] }) ∧
      (crcOk s.din = false → exec .crcVerify s = .next { s with
        results := s.results ++ [{ status := .ok, value := 0 }] })) ∧
    (s.params.maxInputLen < s.din.length →
      exec .crcVerify s = .next { s with results := s.results ++ [{ status := .invalidArg }] })

/-! ## Circular byte buffer (41_ring_buffer.md) -/

/-- R111: `RB_INIT`, its encoding, what it writes, and when it refuses. -/
def Obligations.RbInitResult : Prop :=
  (∀ n : Word, decode ((0x20000000 : Word) ++ n) = .ok (.rbInit n)) ∧
  ∀ (n : Word) (s : State),
    (s.din = [] → n ≠ 0 → n.toNat ≤ s.params.rbMemSize → exec (.rbInit n) s = .next { s with
      cap := n, rd := 0, count := 0, skip := 0, results := s.results ++ [{ status := .ok }] }) ∧
    (s.din ≠ [] ∨ n = 0 ∨ s.params.rbMemSize < n.toNat →
      exec (.rbInit n) s = .next { s with results := s.results ++ [{ status := .invalidArg }] })

/-- R112: `RB_WRITE` writes as many leading bytes of DIN as fit, at the indices after the write index, which may wrap;
unread bytes stay; `RD` stays; a short write is not an error. -/
def Obligations.RbWriteResult : Prop :=
  decode 0x2100000000000000 = .ok .rbWrite ∧
  ∀ s : State,
    (s.Inv → s.din.length ≤ s.params.maxInputLen →
      ∃ n store, n = min s.din.length (s.cap.toNat - s.count.toNat) ∧
        exec .rbWrite s = .next { s with
          store := store, count := BitVec.ofNat 32 (s.count.toNat + n),
          results := s.results ++ [{ status := .ok, value := BitVec.ofNat 32 n }] } ∧
        (∀ i < n, Memory.get? store ((s.rd.toNat + s.count.toNat + i) % s.cap.toNat) = s.din[i]?) ∧
        (∀ a, (∀ i < n, a ≠ (s.rd.toNat + s.count.toNat + i) % s.cap.toNat) →
          Memory.get? store a = Memory.get? s.store a) ∧
        (∀ i < s.count.toNat, Memory.get? store (ringIndex s i) = Memory.get? s.store (ringIndex s i))) ∧
    (s.params.maxInputLen < s.din.length →
      exec .rbWrite s = .next { s with results := s.results ++ [{ status := .invalidArg }] })

/-- R113: `RB_READ` removes and returns the `min(N, COUNT)` oldest unread bytes, in order. -/
def Obligations.RbReadResult : Prop :=
  (∀ n : Word, decode ((0x22000000 : Word) ++ n) = .ok (.rbRead n)) ∧
  ∀ (n : Word) (s : State),
    (s.Inv → s.din = [] →
      ∃ out : List Byte, out.length = min n.toNat s.count.toNat ∧
        (∀ i < out.length, Memory.get? s.store ((s.rd.toNat + i) % s.cap.toNat) = out[i]?) ∧
        exec (.rbRead n) s = .next { s with
          rd := BitVec.ofNat 32 ((s.rd.toNat + out.length) % s.cap.toNat),
          count := BitVec.ofNat 32 (s.count.toNat - out.length),
          results := s.results ++ [{ status := .ok, value := BitVec.ofNat 32 out.length, dout := out }] }) ∧
    (s.din ≠ [] → exec (.rbRead n) s = .next { s with results := s.results ++ [{ status := .invalidArg }] })

/-- R114: `RB_PEEK` returns the same bytes and removes none; peeking again, or reading, returns them again. -/
def Obligations.RbPeekResult : Prop :=
  (∀ n : Word, decode ((0x23000000 : Word) ++ n) = .ok (.rbPeek n)) ∧
  ∀ (n : Word) (s : State),
    (s.Inv → s.din = [] →
      ∃ (out : List Byte) (t u : State), out.length = min n.toNat s.count.toNat ∧
        (∀ i < out.length, Memory.get? s.store ((s.rd.toNat + i) % s.cap.toNat) = out[i]?) ∧
        t = { s with results := s.results ++ [{ status := .ok, value := BitVec.ofNat 32 out.length, dout := out }] } ∧
        exec (.rbPeek n) s = .next t ∧
        exec (.rbPeek n) t = .next { t with
          results := t.results ++ [{ status := .ok, value := BitVec.ofNat 32 out.length, dout := out }] } ∧
        exec (.rbRead n) t = .next u ∧
        u.results = t.results ++ [{ status := .ok, value := BitVec.ofNat 32 out.length, dout := out }]) ∧
    (s.din ≠ [] → exec (.rbPeek n) s = .next { s with results := s.results ++ [{ status := .invalidArg }] })

/-- R115: `RB_AVAIL` returns `COUNT`. -/
def Obligations.RbAvailResult : Prop :=
  decode 0x2400000000000000 = .ok .rbAvail ∧
  ∀ s : State,
    (s.din = [] → exec .rbAvail s = .next { s with
      results := s.results ++ [{ status := .ok, value := s.count }] }) ∧
    (s.din ≠ [] → exec .rbAvail s = .next { s with results := s.results ++ [{ status := .invalidArg }] })

/-- R116: `RB_FREE` returns `CAP - COUNT`, which never underflows. -/
def Obligations.RbFreeResult : Prop :=
  decode 0x2500000000000000 = .ok .rbFree ∧
  ∀ s : State,
    (s.Inv → s.din = [] → ∃ v : Word, v.toNat + s.count.toNat = s.cap.toNat ∧
      exec .rbFree s = .next { s with results := s.results ++ [{ status := .ok, value := v }] }) ∧
    (s.din ≠ [] → exec .rbFree s = .next { s with results := s.results ++ [{ status := .invalidArg }] })

/-- R117: `RB_AVAIL` and `RB_FREE`, issued one after the other, return values that sum to `CAP`. -/
def Obligations.AvailPlusFreeIsCapacity : Prop :=
  ∀ (s : State) (rest : List PortEvent), s.Inv →
    s.port = .command 0x2400000000000000 [] :: .command 0x2500000000000000 [] :: rest →
    ∃ t u a f, step s = .next t ∧ step t = .next u ∧ u.results = s.results ++ [a, f] ∧
      a.status = .ok ∧ f.status = .ok ∧ a.value.toNat + f.value.toNat = s.cap.toNat

/-- R112, R113, R135 on the sequence of unread bytes (R34): `RB_WRITE` appends what fits, `RB_READ` and `P_STREAM` remove
from the front as many bytes as they say, and what `RB_READ` returns is what it removes. -/
def Obligations.CommandsActOnUnreadSequence : Prop :=
  ∀ (s : State) (l : List Byte), s.Inv → s.Unread l →
    (s.din.length ≤ s.params.maxInputLen →
      ∃ t, exec .rbWrite s = .next t ∧ t.Unread (l ++ s.din.take (s.cap.toNat - s.count.toNat))) ∧
    (∀ n : Word, s.din = [] →
      ∃ t r, exec (.rbRead n) s = .next t ∧ t.results = s.results ++ [r] ∧ r.dout = l.take n.toNat ∧
        t.Unread (l.drop n.toNat)) ∧
    (s.din = [] →
      ∃ t r, exec .pStream s = .next t ∧ t.results = s.results ++ [r] ∧ r.value.toNat ≤ l.length ∧
        t.Unread (l.drop r.value.toNat))

/-- R118: FIFO order. If the removed bytes are a prefix of the accepted ones and the unread bytes the rest, in order,
so it is after the next step, whatever it is. -/
def Obligations.FifoOrderKept : Prop :=
  (∀ s t : State, ∀ h : History, s.Inv → h.Holds s → step s = .next t → (h.next s t).Holds t) ∧
  ∀ p : Params, p.Legal → History.Holds ⟨[], []⟩ (State.resetWith p)

/-! ## Frame parser and validator (42_parser.md) -/

/-- R130: the gates of `FrameCheck`, in order, and what it extracts. `L` is the LENGTH field, `hi * 256 + lo`. -/
def Obligations.FrameCheckGates : Prop :=
  frameCheck [] = .error .invalidArg ∧
  (∀ b : List Byte, b ≠ [] → (¬∃ rest, b = 0xAA :: 0x55 :: rest) → frameCheck b = .error .noSync) ∧
  (∀ rest : List Byte, rest.length < 3 → frameCheck (0xAA :: 0x55 :: rest) = .error .badLength) ∧
  ∀ (fl hi lo : Byte) (rest : List Byte),
    let b := 0xAA :: 0x55 :: fl :: hi :: lo :: rest
    let L := hi.toNat * 256 + lo.toNat
    (L < 9 ∨ 1033 < L ∨ b.length < L → frameCheck b = .error .badLength) ∧
    (9 ≤ L → L ≤ 1033 → L ≤ b.length →
      (crcOk (b.take L) = false → frameCheck b = .error .badCrc) ∧
      (crcOk (b.take L) = true → fl.toNat % 16 ≠ 1 → frameCheck b = .error .badVersion) ∧
      (crcOk (b.take L) = true → fl.toNat % 16 = 1 → frameCheck b = .ok {
        flags := fl, totalLength := BitVec.ofNat 16 L, sequence := b.getD 5 0, frameType := b.getD 6 0,
        payload := (b.take (L - 2)).drop 7,
        checksum := BitVec.ofNat 16 ((b.getD (L - 2) 0).toNat * 256 + (b.getD (L - 1) 0).toNat) }))

/-- R131: `P_PARSE`. -/
def Obligations.PParseResult : Prop :=
  decode 0x3000000000000000 = .ok .pParse ∧
  ∀ s : State,
    (s.din.length ≤ s.params.maxInputLen →
      (∀ f, frameCheck s.din = .ok f → exec .pParse s = .next { s with
        results := s.results ++ [{ status := .ok, frame := some f }] }) ∧
      (∀ st, frameCheck s.din = .error st → exec .pParse s = .next { s with
        results := s.results ++ [{ status := st }] })) ∧
    (s.params.maxInputLen < s.din.length →
      exec .pParse s = .next { s with results := s.results ++ [{ status := .invalidArg }] })

/-- R132: `P_VALIDATE` runs every gate; it answers `OK` with value 1 exactly where `P_PARSE` answers `OK`. -/
def Obligations.PValidateResult : Prop :=
  decode 0x3100000000000000 = .ok .pValidate ∧
  ∀ s : State,
    (s.din.length ≤ s.params.maxInputLen →
      (∀ f, frameCheck s.din = .ok f → exec .pValidate s = .next { s with
        results := s.results ++ [{ status := .ok, value := 1 }] }) ∧
      (∀ st, frameCheck s.din = .error st → exec .pValidate s = .next { s with
        results := s.results ++ [{ status := st, value := 0 }] })) ∧
    (s.params.maxInputLen < s.din.length →
      exec .pValidate s = .next { s with results := s.results ++ [{ status := .invalidArg }] })

/-- R133: `P_EXTRACT` returns the payload and its length. -/
def Obligations.PExtractResult : Prop :=
  decode 0x3200000000000000 = .ok .pExtract ∧
  ∀ s : State,
    (s.din.length ≤ s.params.maxInputLen →
      (∀ f, frameCheck s.din = .ok f → exec .pExtract s = .next { s with
        results := s.results ++
          [{ status := .ok, value := BitVec.ofNat 32 f.payload.length, dout := f.payload }] }) ∧
      (∀ st, frameCheck s.din = .error st → exec .pExtract s = .next { s with
        results := s.results ++ [{ status := st }] })) ∧
    (s.params.maxInputLen < s.din.length →
      exec .pExtract s = .next { s with results := s.results ++ [{ status := .invalidArg }] })

/-- R29: a Frame the parser returns has `total_length = 9 + |payload|` and `|payload| <= 1024`, and VERSION 1 (R71). -/
def Obligations.ReturnedFramesAreConsistent : Prop :=
  ∀ (i : Instr) (s t : State) (r : Result) (f : Frame), exec i s = .next t → t.results = s.results ++ [r] →
    r.frame = some f →
    f.totalLength.toNat = 9 + f.payload.length ∧ f.payload.length ≤ 1024 ∧ f.flags.toNat % 16 = 1

/-- R134, R135: `P_STREAM` on the ring buffer, against the rule written on the sequence `l` of unread bytes
(`seqStream`): what it removes, what it counts as noise, what it returns. -/
def Obligations.PStreamResult : Prop :=
  decode 0x3300000000000000 = .ok .pStream ∧
  ∀ s : State,
    (∀ l, s.Inv → s.Unread l → s.din = [] → exec .pStream s = .next { s with
      rd := BitVec.ofNat 32 ((s.rd.toNat + (seqStream s.cap.toNat l).removed) % s.cap.toNat),
      count := BitVec.ofNat 32 (s.count.toNat - (seqStream s.cap.toNat l).removed),
      skip := s.skip + BitVec.ofNat 32 (seqStream s.cap.toNat l).noise,
      results := s.results ++ [{
        status := (seqStream s.cap.toNat l).status, value := BitVec.ofNat 32 (seqStream s.cap.toNat l).removed,
        frame := (seqStream s.cap.toNat l).frame }] }) ∧
    (s.din ≠ [] → exec .pStream s = .next { s with results := s.results ++ [{ status := .invalidArg }] })

/-- R136: a full buffer never stalls, and a `NEED_MORE_DATA` that removes nothing changes nothing and comes again. -/
def Obligations.PStreamProgress : Prop :=
  ∀ (s t : State) (r : Result), s.Inv → s.din = [] → exec .pStream s = .next t → t.results = s.results ++ [r] →
    (s.count = s.cap → 1 ≤ r.value.toNat) ∧
    (r.status = .needMoreData → r.value = 0 →
      t = { s with results := s.results ++ [r] } ∧ exec .pStream t = .next { t with results := t.results ++ [r] })

/-- R137, the source's sync scanning property: noise without a sync byte, then a valid frame: the frame is returned, the
noise skipped and counted, and the bytes after the frame are left. -/
def Obligations.FrameAfterNoiseIsReturned : Prop :=
  ∀ (s : State) (noise w rest : List Byte) (f : Frame), s.Inv → s.din = [] → s.Unread (noise ++ w ++ rest) →
    0xAA ∉ noise → frameCheck w = .ok f → w.length = f.totalLength.toNat →
    ∃ t, exec .pStream s = .next t ∧ t.Unread rest ∧ t.skip = s.skip + BitVec.ofNat 32 noise.length ∧
      t.results = s.results ++
        [{ status := .ok, value := BitVec.ofNat 32 (noise.length + w.length), frame := some f }]

/-- R137, the source's corruption recovery property: a frame with a bad checksum whose body holds no further sync byte
costs one `BAD_CRC` and its 2 sync bytes; the valid frame behind it is returned by the next `P_STREAM`. -/
def Obligations.FrameAfterCorruptFrameIsReturned : Prop :=
  ∀ (s : State) (fl hi lo : Byte) (body w rest : List Byte) (f : Frame),
    s.Inv → s.din = [] → s.Unread ((0xAA :: 0x55 :: fl :: hi :: lo :: body) ++ w ++ rest) →
    body.length + 5 = hi.toNat * 256 + lo.toNat → 9 ≤ body.length + 5 → body.length + 5 ≤ 1033 →
    crcOk (0xAA :: 0x55 :: fl :: hi :: lo :: body) = false → 0xAA ∉ fl :: hi :: lo :: body →
    frameCheck w = .ok f → w.length = f.totalLength.toNat →
    ∃ t u, exec .pStream s = .next t ∧ exec .pStream t = .next u ∧ u.Unread rest ∧
      u.results = s.results ++ [{ status := .badCrc, value := 2 },
        { status := .ok, value := BitVec.ofNat 32 (body.length + 3 + w.length), frame := some f }]

/-- The source's partial-frame wait (95_test_vectors.md S11, R135): with the sync pattern and a legal LENGTH at the head
but fewer bytes than LENGTH, `P_STREAM` answers `NEED_MORE_DATA` with value 0 and consumes nothing. -/
def Obligations.PartialFrameIsLeft : Prop :=
  ∀ (s : State) (fl hi lo : Byte) (body : List Byte), s.Inv → s.din = [] →
    s.Unread (0xAA :: 0x55 :: fl :: hi :: lo :: body) →
    9 ≤ hi.toNat * 256 + lo.toNat → hi.toNat * 256 + lo.toNat ≤ 1033 →
    hi.toNat * 256 + lo.toNat ≤ s.cap.toNat → body.length + 5 < hi.toNat * 256 + lo.toNat →
    exec .pStream s = .next { s with results := s.results ++ [{ status := .needMoreData, value := 0 }] }

/-- R140: `P_SKIPCNT` returns `SKIP` and does not clear it. -/
def Obligations.PSkipcntResult : Prop :=
  decode 0x3400000000000000 = .ok .pSkipcnt ∧
  ∀ s : State,
    (s.din = [] → exec .pSkipcnt s = .next { s with
      results := s.results ++ [{ status := .ok, value := s.skip }] }) ∧
    (s.din ≠ [] → exec .pSkipcnt s = .next { s with results := s.results ++ [{ status := .invalidArg }] })

/-! ## Frame builder and serializer (43_builder.md) -/

/-- R160, R161: `B_BUILD`, byte by byte: sync, the FLAGS byte with VERSION in bits 3:0, LENGTH, SEQ, TYPE, payload,
checksum; the payload length is checked before the destination capacity. -/
def Obligations.BBuildResult : Prop :=
  (∀ (ty sq fl : Byte) (n : Word), decode ((0x40 : Byte) ++ ty ++ sq ++ fl ++ n) = .ok (.bBuild ty sq fl n)) ∧
  ∀ (ty sq fl : Byte) (n : Word) (s : State),
    let L := 9 + s.din.length
    let body := [0xAA, 0x55, (fl &&& 0xF0) ||| 0x01, BitVec.ofNat 8 (L / 256), BitVec.ofNat 8 L, sq, ty] ++ s.din
    let c := (crc16 body).toNat
    (s.din.length ≤ s.params.maxInputLen →
      (1024 < s.din.length → exec (.bBuild ty sq fl n) s = .next { s with
        results := s.results ++ [{ status := .badLength }] }) ∧
      (s.din.length ≤ 1024 → n.toNat < L → exec (.bBuild ty sq fl n) s = .next { s with
        results := s.results ++ [{ status := .bufferFull }] }) ∧
      (s.din.length ≤ 1024 → L ≤ n.toNat → exec (.bBuild ty sq fl n) s = .next { s with
        results := s.results ++ [{
          status := .ok, value := BitVec.ofNat 32 L, dout := body ++ [BitVec.ofNat 8 (c / 256), BitVec.ofNat 8 c] }] })) ∧
    (s.params.maxInputLen < s.din.length →
      exec (.bBuild ty sq fl n) s = .next { s with results := s.results ++ [{ status := .invalidArg }] })

/-- R162: `B_SERIALIZE` writes a Frame record, given as its type, sequence, flags and payload; its length and checksum
are computed anew. -/
def Obligations.BSerializeResult : Prop :=
  (∀ (ty sq fl : Byte) (n : Word), decode ((0x41 : Byte) ++ ty ++ sq ++ fl ++ n) = .ok (.bSerialize ty sq fl n)) ∧
  ∀ (f : Frame) (n : Word) (s : State), s.din = f.payload →
    let L := 9 + f.payload.length
    let body := [0xAA, 0x55, (f.flags &&& 0xF0) ||| 0x01, BitVec.ofNat 8 (L / 256), BitVec.ofNat 8 L, f.sequence,
      f.frameType] ++ f.payload
    let c := (crc16 body).toNat
    (s.din.length ≤ s.params.maxInputLen →
      (1024 < f.payload.length → exec (.bSerialize f.frameType f.sequence f.flags n) s = .next { s with
        results := s.results ++ [{ status := .badLength }] }) ∧
      (f.payload.length ≤ 1024 → n.toNat < L → exec (.bSerialize f.frameType f.sequence f.flags n) s = .next { s with
        results := s.results ++ [{ status := .bufferFull }] }) ∧
      (f.payload.length ≤ 1024 → L ≤ n.toNat → exec (.bSerialize f.frameType f.sequence f.flags n) s = .next { s with
        results := s.results ++ [{
          status := .ok, value := BitVec.ofNat 32 L, dout := body ++ [BitVec.ofNat 8 (c / 256), BitVec.ofNat 8 c] }] })) ∧
    (s.params.maxInputLen < s.din.length →
      exec (.bSerialize f.frameType f.sequence f.flags n) s = .next { s with
        results := s.results ++ [{ status := .invalidArg }] })

/-- R163: parsing what `B_BUILD` wrote returns the frame, with the FLAGS byte the builder wrote, which is the one given
where its VERSION is 1; `CRC_VERIFY` finds it valid. -/
def Obligations.ParseInvertsBuild : Prop :=
  ∀ (ty sq fl : Byte) (n : Word) (s : State), s.params.Legal → s.din.length ≤ 1024 → 9 + s.din.length ≤ n.toNat →
    ∃ (w : List Byte) (t : State), w.length = 9 + s.din.length ∧
      t = { s with results := s.results ++ [{ status := .ok, value := BitVec.ofNat 32 w.length, dout := w }] } ∧
      exec (.bBuild ty sq fl n) s = .next t ∧
      exec .pParse { t with din := w } = .next { t with
        din := w, results := t.results ++ [{ status := .ok, frame := some {
          flags := (fl &&& 0xF0) ||| 0x01, totalLength := BitVec.ofNat 16 (9 + s.din.length), sequence := sq, frameType := ty,
          payload := s.din, checksum := be16 (w.getD (w.length - 2) 0) (w.getD (w.length - 1) 0) } }] } ∧
      exec .crcVerify { t with din := w } = .next { t with
        din := w, results := t.results ++ [{ status := .ok, value := 1 }] } ∧
      (fl.toNat % 16 = 1 → (fl &&& 0xF0) ||| 0x01 = fl)

/-- R163 through the ring buffer: a built frame written into an empty buffer that holds it comes back from `P_STREAM`
with every field of the Frame record that `P_PARSE` returns for it (`ParseInvertsBuild`), the stored checksum among
them, and leaves the buffer empty. -/
def Obligations.StreamReturnsWrittenFrame : Prop :=
  ∀ (ty sq fl : Byte) (n : Word) (p w : List Byte) (s : State), s.Inv → writeFrame ty sq fl p n = .ok w →
    s.count = 0 → w.length ≤ s.cap.toNat → s.din = w →
    ∃ (t u : State) (f : Frame), exec .rbWrite s = .next t ∧ exec .pStream { t with din := [] } = .next u ∧
      u.count = 0 ∧ u.skip = s.skip ∧
      u.results = s.results ++ [{ status := .ok, value := BitVec.ofNat 32 w.length },
        { status := .ok, value := BitVec.ofNat 32 w.length, frame := some f }] ∧
      f = {
        flags := (fl &&& 0xF0) ||| 0x01, totalLength := BitVec.ofNat 16 w.length, sequence := sq, frameType := ty,
        payload := p, checksum := be16 (w.getD (w.length - 2) 0) (w.getD (w.length - 1) 0) } ∧
      f.totalLength.toNat = w.length ∧ w.length = 9 + p.length ∧ (fl.toNat % 16 = 1 → f.flags = fl)
end

