-- ==== Sys2Proof/Laws/State.lean ====
section
/-! SUPPORT. One lemma per field per update of State, true by rfl. -/

namespace Sys2Proof.Machine

/-! ## deliver -/

@[simp] theorem State.deliver_params (s : State) (r : Result) : (s.deliver r).params = s.params := rfl
@[simp] theorem State.deliver_cap (s : State) (r : Result) : (s.deliver r).cap = s.cap := rfl
@[simp] theorem State.deliver_rd (s : State) (r : Result) : (s.deliver r).rd = s.rd := rfl
@[simp] theorem State.deliver_count (s : State) (r : Result) : (s.deliver r).count = s.count := rfl
@[simp] theorem State.deliver_skip (s : State) (r : Result) : (s.deliver r).skip = s.skip := rfl
@[simp] theorem State.deliver_store (s : State) (r : Result) : (s.deliver r).store = s.store := rfl
@[simp] theorem State.deliver_port (s : State) (r : Result) : (s.deliver r).port = s.port := rfl
@[simp] theorem State.deliver_din (s : State) (r : Result) : (s.deliver r).din = s.din := rfl
@[simp] theorem State.deliver_results (s : State) (r : Result) : (s.deliver r).results = s.results ++ [r] := rfl

/-! ## present -/

@[simp] theorem State.present_params (s : State) (d : List Byte) : (s.present d).params = s.params := rfl
@[simp] theorem State.present_cap (s : State) (d : List Byte) : (s.present d).cap = s.cap := rfl
@[simp] theorem State.present_rd (s : State) (d : List Byte) : (s.present d).rd = s.rd := rfl
@[simp] theorem State.present_count (s : State) (d : List Byte) : (s.present d).count = s.count := rfl
@[simp] theorem State.present_skip (s : State) (d : List Byte) : (s.present d).skip = s.skip := rfl
@[simp] theorem State.present_store (s : State) (d : List Byte) : (s.present d).store = s.store := rfl
@[simp] theorem State.present_port (s : State) (d : List Byte) : (s.present d).port = s.port := rfl
@[simp] theorem State.present_din (s : State) (d : List Byte) : (s.present d).din = d := rfl
@[simp] theorem State.present_results (s : State) (d : List Byte) : (s.present d).results = s.results := rfl

/-! ## discard -/

@[simp] theorem discard_params (s : State) (n : Nat) : (discard s n).params = s.params := rfl
@[simp] theorem discard_cap (s : State) (n : Nat) : (discard s n).cap = s.cap := rfl
@[simp] theorem discard_rd (s : State) (n : Nat) : (discard s n).rd = BitVec.ofNat 32 (ringIndex s n) := rfl
@[simp] theorem discard_count (s : State) (n : Nat) : (discard s n).count = BitVec.ofNat 32 (s.count.toNat - n) := rfl
@[simp] theorem discard_skip (s : State) (n : Nat) : (discard s n).skip = s.skip := rfl
@[simp] theorem discard_store (s : State) (n : Nat) : (discard s n).store = s.store := rfl
@[simp] theorem discard_port (s : State) (n : Nat) : (discard s n).port = s.port := rfl
@[simp] theorem discard_din (s : State) (n : Nat) : (discard s n).din = s.din := rfl
@[simp] theorem discard_results (s : State) (n : Nat) : (discard s n).results = s.results := rfl

/-! ## dropNoise -/

@[simp] theorem dropNoise_params (s : State) : (dropNoise s).params = s.params := rfl
@[simp] theorem dropNoise_cap (s : State) : (dropNoise s).cap = s.cap := rfl
@[simp] theorem dropNoise_rd (s : State) : (dropNoise s).rd = BitVec.ofNat 32 (ringIndex s 1) := rfl
@[simp] theorem dropNoise_count (s : State) : (dropNoise s).count = BitVec.ofNat 32 (s.count.toNat - 1) := rfl
@[simp] theorem dropNoise_skip (s : State) : (dropNoise s).skip = s.skip + 1 := rfl
@[simp] theorem dropNoise_store (s : State) : (dropNoise s).store = s.store := rfl
@[simp] theorem dropNoise_port (s : State) : (dropNoise s).port = s.port := rfl
@[simp] theorem dropNoise_din (s : State) : (dropNoise s).din = s.din := rfl
@[simp] theorem dropNoise_results (s : State) : (dropNoise s).results = s.results := rfl

/-! ## initRing -/

@[simp] theorem initRing_params (n : Word) (s : State) : (initRing n s).params = s.params := rfl
@[simp] theorem initRing_cap (n : Word) (s : State) : (initRing n s).cap = n := rfl
@[simp] theorem initRing_rd (n : Word) (s : State) : (initRing n s).rd = 0 := rfl
@[simp] theorem initRing_count (n : Word) (s : State) : (initRing n s).count = 0 := rfl
@[simp] theorem initRing_skip (n : Word) (s : State) : (initRing n s).skip = 0 := rfl
@[simp] theorem initRing_store (n : Word) (s : State) : (initRing n s).store = s.store := rfl
@[simp] theorem initRing_port (n : Word) (s : State) : (initRing n s).port = s.port := rfl
@[simp] theorem initRing_din (n : Word) (s : State) : (initRing n s).din = s.din := rfl
@[simp] theorem initRing_results (n : Word) (s : State) : (initRing n s).results = s.results := rfl

/-! ## applyReset -/

@[simp] theorem applyReset_params (s : State) : (applyReset s).params = s.params := rfl
@[simp] theorem applyReset_cap (s : State) : (applyReset s).cap = BitVec.ofNat 32 s.params.rbMemSize := rfl
@[simp] theorem applyReset_rd (s : State) : (applyReset s).rd = 0 := rfl
@[simp] theorem applyReset_count (s : State) : (applyReset s).count = 0 := rfl
@[simp] theorem applyReset_skip (s : State) : (applyReset s).skip = 0 := rfl
@[simp] theorem applyReset_store (s : State) : (applyReset s).store = [] := rfl
@[simp] theorem applyReset_port (s : State) : (applyReset s).port = s.port := rfl
@[simp] theorem applyReset_din (s : State) : (applyReset s).din = s.din := rfl
@[simp] theorem applyReset_results (s : State) : (applyReset s).results = s.results := rfl

/-! ## The ring index depends only on RD and CAP -/

@[simp] theorem State.deliver_ringIndex (s : State) (r : Result) (i : Nat) : ringIndex (s.deliver r) i = ringIndex s i := rfl
@[simp] theorem State.present_ringIndex (s : State) (d : List Byte) (i : Nat) : ringIndex (s.present d) i = ringIndex s i := rfl

end Sys2Proof.Machine
end

