-- ==== Sys2Proof/Laws/Ring.lean ====
section
/-! SUPPORT. What the ring-buffer operations can do, once each: indices, single bytes, byte loops, Discard. -/

namespace Sys2Proof.Machine

/-! ## Ports do not touch the buffer -/

@[simp] theorem State.deliver_unreadByte (s : State) (r : Result) (i : Nat) :
    (s.deliver r).unreadByte i = s.unreadByte i := rfl

@[simp] theorem State.present_unreadByte (s : State) (d : List Byte) (i : Nat) :
    (s.present d).unreadByte i = s.unreadByte i := rfl

theorem State.Inv.deliver {s : State} (h : s.Inv) (r : Result) : (s.deliver r).Inv := h

theorem State.Inv.present {s : State} (h : s.Inv) (d : List Byte) : (s.present d).Inv := h

/-! ## Indices -/

theorem ringIndex_lt_cap {s : State} (h : s.RegsLegal) (i : Nat) : ringIndex s i < s.cap.toNat :=
  Nat.mod_lt _ h.1

theorem ringIndex_lt_size {s : State} (h : s.RegsLegal) (i : Nat) : ringIndex s i < s.params.rbMemSize :=
  lt_of_lt_of_le (ringIndex_lt_cap h i) h.2.1

/-- Every index the ring rules compute is one that R6 allows (R50). -/
theorem storeIndexOk_ringIndex {s : State} (h : s.RegsLegal) (i : Nat) : storeIndexOk s (ringIndex s i) = true := by
  simp [storeIndexOk, ringIndex_lt_cap h i, ringIndex_lt_size h i]

/-- A legal RD is the index of the oldest byte. -/
theorem ringIndex_zero {s : State} (h : s.RegsLegal) : ringIndex s 0 = s.rd.toNat :=
  Nat.mod_eq_of_lt h.2.2.1

/-- Offsets below CAP have indices of their own. -/
theorem ringIndex_inj {s : State} {i j : Nat} (hi : i < s.cap.toNat) (hj : j < s.cap.toNat)
    (h : ringIndex s i = ringIndex s j) : i = j := by
  have h' : (s.rd.toNat + i) ≡ (s.rd.toNat + j) [MOD s.cap.toNat] := h
  have := Nat.ModEq.add_left_cancel' _ h'
  rwa [Nat.ModEq, Nat.mod_eq_of_lt hi, Nat.mod_eq_of_lt hj] at this

/-! ## Single bytes -/

/-- `RingByte` returns the unread byte. -/
theorem ringByte_of_unreadByte {s : State} (h : s.RegsLegal) {i : Nat} {b : Byte} (hb : s.unreadByte i = some b) :
    ringByte s i = .ok b := by
  have hb' : Memory.get? s.store (ringIndex s i) = some b := hb
  simp [ringByte, memRead, storeIndexOk_ringIndex h, hb']

/-- `RingByte` returns nothing but the unread byte. -/
theorem unreadByte_of_ringByte {s : State} {i : Nat} {b : Byte} (h : ringByte s i = .ok b) :
    s.unreadByte i = some b := by
  simp only [ringByte, memRead] at h
  split at h
  · split at h
    · next hb => cases h; exact hb
    · cases h
  · cases h

/-- In a state that satisfies the invariant, the unread bytes are a sequence (R34). -/
theorem State.Inv.exists_unread {s : State} (h : s.Inv) : ∃ l, s.Unread l := by
  refine ⟨(List.range s.count.toNat).map fun i => (s.unreadByte i).getD 0, by simp, fun i hi => ?_⟩
  obtain ⟨b, hb⟩ := Option.isSome_iff_exists.mp (h.2.2.2 i hi)
  simp [List.getElem?_map, List.getElem?_range hi, hb]

/-- There is one such sequence. -/
theorem State.Unread.unique {s : State} {l l' : List Byte} (h : s.Unread l) (h' : s.Unread l') : l = l' := by
  apply List.ext_getElem?
  intro i
  by_cases hi : i < s.count.toNat
  · rw [← h.2 i hi, ← h'.2 i hi]
  · rw [List.getElem?_eq_none (by omega), List.getElem?_eq_none (by omega)]

/-- `RingByte(i)` is byte `i` of the sequence. -/
theorem State.Unread.ringByte {s : State} {l : List Byte} (hl : s.Unread l) (h : s.RegsLegal) {i : Nat}
    (hi : i < l.length) : Machine.ringByte s i = .ok l[i] :=
  ringByte_of_unreadByte h (by rw [hl.2 i (hl.1 ▸ hi), List.getElem?_eq_getElem hi])

/-! ## Byte loops -/

/-- The loop of RingByte returns the bytes of the sequence. -/
theorem State.Unread.ringBytes {s : State} {l : List Byte} (hl : s.Unread l) (h : s.RegsLegal) (n i : Nat)
    (hn : i + n ≤ l.length) : Machine.ringBytes s i n = .ok ((l.drop i).take n) := by
  induction n generalizing i with
  | zero => simp [Machine.ringBytes]
  | succ n ih =>
    have hi : i < l.length := by omega
    simp only [Machine.ringBytes, hl.ringByte h hi, ih (i + 1) (by omega)]
    rw [List.drop_eq_getElem_cons hi, List.take_succ_cons]

/-- What the write loop leaves: only STORE changes; the written indices hold the bytes, every other index what it
held; the storage keeps its form. -/
structure RingWritten (s t : State) (j : Nat) (bs : List Byte) : Prop where
  frame : t = { s with store := t.store }
  written : ∀ i (hi : i < bs.length), Memory.get? t.store (ringIndex s (j + i)) = some bs[i]
  others : ∀ x, (∀ i < bs.length, x ≠ ringIndex s (j + i)) → Memory.get? t.store x = Memory.get? s.store x
  legal : s.StoreLegal → t.StoreLegal

/-- The write loop succeeds, and so leaves. The bytes fit (`bs.length <= CAP`), so no index is written twice. -/
theorem ringWrite_spec {s : State} (h : s.RegsLegal) (j : Nat) (bs : List Byte) (hfit : j + bs.length ≤ s.cap.toNat) :
    ∃ t, ringWrite s j bs = .ok t ∧ RingWritten s t j bs := by
  induction bs generalizing s j with
  | nil => exact ⟨s, rfl, rfl, by simp, by simp, id⟩
  | cons b bs ih =>
    simp only [List.length_cons] at hfit
    obtain ⟨t, ht, hw⟩ := ih (s := { s with store := Memory.set s.store (ringIndex s j) b }) h (j + 1)
      (by simp only; omega)
    have hidx : ∀ k, ringIndex { s with store := Memory.set s.store (ringIndex s j) b } k = ringIndex s k := fun _ => rfl
    refine ⟨t, ?_, ?_, ?_, ?_, ?_⟩
    · simp only [ringWrite, memWrite, storeIndexOk_ringIndex h, if_true, ht]
    · rw [hw.frame]
    · intro i hi
      cases i with
      | zero =>
        have hne : ∀ k < bs.length, ringIndex s (j + 0) ≠ ringIndex s (j + 1 + k) := fun k hk he => by
          have := ringIndex_inj (s := s) (by omega) (by omega) he
          omega
        rw [hw.others _ hne, Nat.add_zero, Memory.get?_set_same, List.getElem_cons_zero]
      | succ i =>
        have := hw.written i (by simpa using hi)
        rw [hidx] at this
        rw [show j + (i + 1) = j + 1 + i by omega, this, List.getElem_cons_succ]
    · intro x hx
      rw [hw.others x fun i hi => by
          rw [hidx, show j + 1 + i = j + (i + 1) by omega]
          exact hx (i + 1) (by simpa using hi),
        Memory.get?_set_other _ _ (by simpa using hx 0 (by simp))]
    · intro hs
      refine hw.legal ⟨Memory.set_wf hs.1 _ _, fun c hc => ?_⟩
      rcases Memory.mem_set hc with rfl | hc
      · exact ringIndex_lt_size h j
      · exact hs.2 c hc

/-! ## Discard -/

/-- The offsets move up by the number of bytes discarded. -/
theorem discard_ringIndex {s : State} (h : s.RegsLegal) (n i : Nat) :
    ringIndex (discard s n) i = ringIndex s (n + i) := by
  have hlt : ringIndex s n < 2 ^ 32 := lt_trans (ringIndex_lt_cap h n) s.cap.isLt
  simp only [ringIndex, discard_rd, discard_cap, BitVec.toNat_ofNat] at *
  rw [Nat.mod_eq_of_lt hlt, Nat.mod_add_mod, Nat.add_assoc]

theorem discard_unreadByte {s : State} (h : s.RegsLegal) (n i : Nat) :
    (discard s n).unreadByte i = s.unreadByte (n + i) := by
  simp only [State.unreadByte, discard_store, discard_ringIndex h]

theorem discard_count_toNat (s : State) (n : Nat) : (discard s n).count.toNat = s.count.toNat - n := by
  have := s.count.isLt
  simp only [discard_count, BitVec.toNat_ofNat]
  exact Nat.mod_eq_of_lt (by omega)

theorem discard_rd_toNat {s : State} (h : s.RegsLegal) (n : Nat) : (discard s n).rd.toNat = ringIndex s n := by
  have hlt : ringIndex s n < 2 ^ 32 := lt_trans (ringIndex_lt_cap h n) s.cap.isLt
  simp only [discard_rd, BitVec.toNat_ofNat, Nat.mod_eq_of_lt hlt]

theorem State.RegsLegal.discard {s : State} (h : s.RegsLegal) (n : Nat) : (Machine.discard s n).RegsLegal := by
  refine ⟨h.1, h.2.1, ?_, ?_⟩
  · rw [discard_rd_toNat h]; exact ringIndex_lt_cap h n
  · rw [discard_count_toNat]; exact le_trans (Nat.sub_le _ _) h.2.2.2

/-- Discard removes the oldest bytes of the sequence. -/
theorem State.Unread.discard {s : State} {l : List Byte} (hl : s.Unread l) (h : s.RegsLegal) (n : Nat) :
    (Machine.discard s n).Unread (l.drop n) := by
  refine ⟨by rw [List.length_drop, discard_count_toNat, hl.1], fun i hi => ?_⟩
  rw [discard_count_toNat] at hi
  rw [discard_unreadByte h, hl.2 _ (by omega), List.getElem?_drop]

/-- Discard keeps the invariant, whatever its argument. -/
theorem State.Inv.discard {s : State} (h : s.Inv) (n : Nat) : (Machine.discard s n).Inv := by
  refine ⟨h.1, h.2.1.discard n, h.2.2.1, fun i hi => ?_⟩
  rw [discard_count_toNat] at hi
  rw [discard_unreadByte h.2.1]
  exact h.2.2.2 _ (by omega)

/-- Two discards are one. -/
theorem discard_discard {s : State} (h : s.RegsLegal) (m n : Nat) : discard (discard s m) n = discard s (m + n) := by
  have hr : BitVec.ofNat 32 (ringIndex (Machine.discard s m) n) = BitVec.ofNat 32 (ringIndex s (m + n)) := by
    rw [discard_ringIndex h]
  have hc : BitVec.ofNat 32 ((Machine.discard s m).count.toNat - n) = BitVec.ofNat 32 (s.count.toNat - (m + n)) := by
    rw [discard_count_toNat, Nat.sub_sub]
  simp only [discard] at hr hc ⊢
  simp only [hr, hc]

/-- Discarding nothing changes nothing. -/
theorem discard_zero {s : State} (h : s.RegsLegal) : discard s 0 = s := by
  simp only [discard, ringIndex_zero h, Nat.sub_zero, BitVec.ofNat_toNat, BitVec.setWidth_eq]

end Sys2Proof.Machine
end

