-- ==== Sys2Proof/Laws/Commands.lean ====
section
/-! SUPPORT. What a command can do: the admission checks once, and the two ways a command ends. -/

namespace Sys2Proof.Machine

/-! ## Admission (R64 checks 3 and 4) -/

/-- The admission checks pass exactly when the command is well-formed with its DIN. -/
theorem admission_eq_none_iff (noDin : Bool) (s : State) :
    admission noDin s = none ↔ (noDin = true → s.din = []) ∧ s.din.length ≤ s.params.maxInputLen := by
  cases noDin <;> cases hd : s.din <;> simp [admission, hd]

/-- The only status admission gives is `INVALID_ARG`. -/
theorem admission_eq_some {noDin : Bool} {s : State} {st : Status} (h : admission noDin s = some st) :
    st = .invalidArg := by
  simp only [admission] at h
  split_ifs at h <;> simp_all

theorem runCommand_admitted {noDin : Bool} {s : State} (h : (noDin = true → s.din = []) ∧ s.din.length ≤ s.params.maxInputLen)
    (rule : Except Fault (State × Result)) : runCommand noDin s rule = complete rule := by
  rw [runCommand, (admission_eq_none_iff noDin s).mpr h]

theorem runCommand_rejected {noDin : Bool} {s : State}
    (h : ¬((noDin = true → s.din = []) ∧ s.din.length ≤ s.params.maxInputLen)) (rule : Except Fault (State × Result)) :
    runCommand noDin s rule = .next (s.deliver (Result.error .invalidArg)) := by
  rw [runCommand]
  cases ha : admission noDin s with
  | none => exact absurd ((admission_eq_none_iff noDin s).mp ha) h
  | some st => rw [admission_eq_some ha]

/-! ## Completion -/

@[simp] theorem complete_ok (u : State) (r : Result) : complete (.ok (u, r)) = .next (u.deliver r) := rfl

@[simp] theorem complete_error (f : Fault) : complete (.error f) = .fault f := rfl

theorem complete_eq_next {rule : Except Fault (State × Result)} {t : State} :
    complete rule = .next t ↔ ∃ u r, rule = .ok (u, r) ∧ t = u.deliver r := by
  cases rule with
  | error f => simp
  | ok p =>
    obtain ⟨u, r⟩ := p
    simp only [complete_ok, Host.Outcome.next.injEq, Except.ok.injEq, Prod.mk.injEq]
    exact ⟨fun h => ⟨u, r, ⟨rfl, rfl⟩, h.symm⟩, fun ⟨_, _, ⟨hu, hr⟩, h⟩ => by rw [hu, hr, h]⟩

/-! ## All commands at once -/

/-- The rule a command runs once it is admitted. -/
def ruleOf (i : Instr) (s : State) : Except Fault (State × Result) :=
  match i with
  | .crcCompute => .ok (s, { status := .ok, value := (crc16 s.din).setWidth 32 })
  | .crcVerify => .ok (s, { status := .ok, value := if crcOk s.din then 1 else 0 })
  | .rbInit n => .ok (if badCapacity n s then (s, Result.error .invalidArg) else (initRing n s, { status := .ok }))
  | .rbWrite => rbWrite s
  | .rbRead n => readOut (readLength n s) s (discard s (readLength n s))
  | .rbPeek n => readOut (readLength n s) s s
  | .rbAvail => .ok (s, { status := .ok, value := s.count })
  | .rbFree => .ok (s, { status := .ok, value := BitVec.ofNat 32 (freeSpace s) })
  | .pParse => .ok (s, flatResult s.din fun f => { status := .ok, frame := some f })
  | .pValidate => .ok (s, flatResult s.din fun _ => { status := .ok, value := 1 })
  | .pExtract => .ok (s, flatResult s.din fun f =>
      { status := .ok, value := BitVec.ofNat 32 f.payload.length, dout := f.payload })
  | .pStream => pStream s
  | .pSkipcnt => .ok (s, { status := .ok, value := s.skip })
  | .bBuild type seq flags n => .ok (s, writeResult (writeFrame type seq flags s.din n))
  | .bSerialize type seq flags n => .ok (s, writeResult (writeFrame type seq flags s.din n))

/-- Every command is admission, then its rule. -/
theorem exec_eq_runCommand (i : Instr) (s : State) : exec i s = runCommand i.dinMustBeEmpty s (ruleOf i s) := by
  cases i <;> rfl

theorem exec_admitted {i : Instr} {s : State} (h : WellFormed s.params i s.din) : exec i s = complete (ruleOf i s) := by
  rw [exec_eq_runCommand, runCommand_admitted h]

theorem exec_rejected {i : Instr} {s : State} (h : ¬WellFormed s.params i s.din) :
    exec i s = .next (s.deliver (Result.error .invalidArg)) := by
  rw [exec_eq_runCommand, runCommand_rejected h]

/-- What a command can do, if it ends: it is turned away with the state unchanged, or its rule ended so. -/
theorem exec_eq_next_cases {i : Instr} {s t : State} (h : exec i s = .next t) :
    (¬WellFormed s.params i s.din ∧ t = s.deliver (Result.error .invalidArg)) ∨
      (WellFormed s.params i s.din ∧ ∃ u r, ruleOf i s = .ok (u, r) ∧ t = u.deliver r) := by
  by_cases hw : WellFormed s.params i s.din
  · rw [exec_admitted hw, complete_eq_next] at h
    exact .inr ⟨hw, h⟩
  · rw [exec_rejected hw] at h
    exact .inl ⟨hw, by injection h with h; exact h.symm⟩

/-! ## The step -/

/-- What a step does, by the next event at the port. -/
theorem step_nil {s : State} (h : s.port = []) : step s = .next s := by simp [step, accept, h, idle]

theorem step_reset {s : State} {rest : List PortEvent} (h : s.port = .reset :: rest) :
    step s = .next (applyReset { s with port := rest }) := by simp [step, accept, h]

theorem step_command {s : State} {w : CmdWord} {din : List Byte} {rest : List PortEvent}
    (h : s.port = .command w din :: rest) :
    step s = runWord w { s with port := rest, din := din } := by simp [step, accept, h, State.present]

end Sys2Proof.Machine
end

