-- ==== Sys2Proof/Laws/Encoding.lean ====
section
/-! SUPPORT. Each field of a word put together from its fields is that field (R60). -/

namespace Sys2Proof

@[simp] theorem CmdWord.opc_ofFields (o a b c : Byte) (n : Word) : (CmdWord.ofFields o a b c n).opc = o := by
  ext i hi
  simp only [CmdWord.opc, CmdWord.ofFields, BitVec.getElem_extractLsb', BitVec.getLsbD_append]
  simp only [show ¬(56 + i < 32) by omega, show ¬(56 + i - 32 < 8) by omega, show ¬(56 + i - 32 - 8 < 8) by omega,
    show ¬(56 + i - 32 - 8 - 8 < 8) by omega, if_false, show 56 + i - 32 - 8 - 8 - 8 = i by omega,
    BitVec.getLsbD_eq_getElem hi]

@[simp] theorem CmdWord.fieldA_ofFields (o a b c : Byte) (n : Word) : (CmdWord.ofFields o a b c n).fieldA = a := by
  ext i hi
  simp only [CmdWord.fieldA, CmdWord.ofFields, BitVec.getElem_extractLsb', BitVec.getLsbD_append]
  simp only [show ¬(48 + i < 32) by omega, show ¬(48 + i - 32 < 8) by omega, show ¬(48 + i - 32 - 8 < 8) by omega,
    show 48 + i - 32 - 8 - 8 = i by omega, hi, BitVec.getLsbD_eq_getElem hi, if_false, if_true]

@[simp] theorem CmdWord.fieldB_ofFields (o a b c : Byte) (n : Word) : (CmdWord.ofFields o a b c n).fieldB = b := by
  ext i hi
  simp only [CmdWord.fieldB, CmdWord.ofFields, BitVec.getElem_extractLsb', BitVec.getLsbD_append]
  simp only [show ¬(40 + i < 32) by omega, show ¬(40 + i - 32 < 8) by omega, show 40 + i - 32 - 8 = i by omega, hi,
    BitVec.getLsbD_eq_getElem hi, if_false, if_true]

@[simp] theorem CmdWord.fieldC_ofFields (o a b c : Byte) (n : Word) : (CmdWord.ofFields o a b c n).fieldC = c := by
  ext i hi
  simp only [CmdWord.fieldC, CmdWord.ofFields, BitVec.getElem_extractLsb', BitVec.getLsbD_append]
  simp only [show ¬(32 + i < 32) by omega, show 32 + i - 32 = i by omega, hi, BitVec.getLsbD_eq_getElem hi,
    if_false, if_true]

@[simp] theorem CmdWord.fieldN_ofFields (o a b c : Byte) (n : Word) : (CmdWord.ofFields o a b c n).fieldN = n := by
  ext i hi
  simp only [CmdWord.fieldN, CmdWord.ofFields, BitVec.getElem_extractLsb', BitVec.getLsbD_append]
  simp only [Nat.zero_add, BitVec.getLsbD_eq_getElem hi, if_true, hi]

/-- A word is its fields, put together: the five fields cover all 64 bits. -/
theorem CmdWord.ofFields_fields (w : CmdWord) :
    CmdWord.ofFields w.opc w.fieldA w.fieldB w.fieldC w.fieldN = w := by
  apply BitVec.eq_of_getLsbD_eq
  intro i hi
  simp only [CmdWord.ofFields, CmdWord.opc, CmdWord.fieldA, CmdWord.fieldB, CmdWord.fieldC, CmdWord.fieldN,
    BitVec.getLsbD_append, BitVec.getLsbD_extractLsb']
  by_cases h1 : i < 32
  · simp [h1]
  by_cases h2 : i - 32 < 8
  · simp [h1, h2, show 32 + (i - 32) = i by omega]
  by_cases h3 : i - 32 - 8 < 8
  · simp [h1, h2, h3, show 40 + (i - 32 - 8) = i by omega]
  by_cases h4 : i - 32 - 8 - 8 < 8
  · simp [h1, h2, h3, h4, show 48 + (i - 32 - 8 - 8) = i by omega]
  · simp [h1, h2, h3, h4, show 56 + (i - 32 - 8 - 8 - 8) = i by omega, show i - 32 - 8 - 8 - 8 < 8 by omega]

/-- A word's number, by its fields. -/
theorem CmdWord.toNat_fields (w : CmdWord) :
    w.toNat = w.opc.toNat * 2 ^ 56 + w.fieldA.toNat * 2 ^ 48 + w.fieldB.toNat * 2 ^ 40 + w.fieldC.toNat * 2 ^ 32 +
      w.fieldN.toNat := by
  have := w.isLt
  simp only [CmdWord.opc, CmdWord.fieldA, CmdWord.fieldB, CmdWord.fieldC, CmdWord.fieldN, BitVec.extractLsb'_toNat,
    Nat.shiftRight_eq_div_pow]
  omega

@[simp] theorem decode_ofFields (o a b c : Byte) (n : Word) :
    decode (CmdWord.ofFields o a b c n) = decodeFields o a b c n := by simp [decode]

/-- The fields of a word are those of the command `i`, in the places its format uses. -/
def Instr.hasFields (i : Instr) (a b c : Byte) (n : Word) : Prop :=
  match i with
  | .rbInit m => n = m
  | .rbRead m => n = m
  | .rbPeek m => n = m
  | .bBuild type seq flags m => a = type ∧ b = seq ∧ c = flags ∧ n = m
  | .bSerialize type seq flags m => a = type ∧ b = seq ∧ c = flags ∧ n = m
  | .crcCompute | .crcVerify | .rbWrite | .rbAvail | .rbFree | .pParse | .pValidate | .pExtract | .pStream
  | .pSkipcnt => True

/-- A row is selected exactly by its opcode, with the fields as they are. -/
theorem selectRow_eq_some {o a b c : Byte} {n : Word} {i : Instr} :
    selectRow o a b c n = some i ↔ o = i.opcode ∧ i.hasFields a b c n := by
  constructor
  · intro h
    unfold selectRow at h
    split at h <;> cases h
    all_goals first
      | exact ⟨rfl, trivial⟩
      | exact ⟨rfl, rfl⟩
      | exact ⟨rfl, rfl, rfl, rfl, rfl⟩
  · rintro ⟨rfl, hf⟩
    cases i with
    | rbInit m => cases hf; rfl
    | rbRead m => cases hf; rfl
    | rbPeek m => cases hf; rfl
    | bBuild t s f m => obtain ⟨rfl, rfl, rfl, rfl⟩ := hf; rfl
    | bSerialize t s f m => obtain ⟨rfl, rfl, rfl, rfl⟩ := hf; rfl
    | _ => rfl

/-- No row is selected exactly by an opcode that no command has. -/
theorem selectRow_eq_none {o a b c : Byte} {n : Word} : selectRow o a b c n = none ↔
    o ∉ [0x10, 0x11, 0x20, 0x21, 0x22, 0x23, 0x24, 0x25, 0x30, 0x31, 0x32, 0x33, 0x34, 0x40, 0x41] := by
  unfold selectRow
  split
  case h_16 => simp_all
  all_goals simp

/-- When the decoder answers a command: its row is selected and its format's reserved fields are 0. -/
theorem decodeFields_eq_ok {o a b c : Byte} {n : Word} {i : Instr} :
    decodeFields o a b c n = .ok i ↔ selectRow o a b c n = some i ∧ i.format.reservedZero a b c n = true := by
  unfold decodeFields
  cases h : selectRow o a b c n with
  | none => simp
  | some j =>
    by_cases hz : j.format.reservedZero a b c n = true
    · simp only [hz, if_true, Except.ok.injEq, Option.some.injEq]
      exact ⟨fun e => ⟨e, e ▸ hz⟩, fun e => e.1⟩
    · simp only [hz, if_false, Option.some.injEq, reduceCtorEq, false_iff, not_and]
      exact fun e => e ▸ hz

end Sys2Proof
end

