-- ==== Sys2Proof/Laws/PerInstr.lean ====
section
/-! SUPPORT. A law of every command as syntax: its word carries its opcode, and 0 in every field its format reserves
(R62, R63). One lemma per constructor. -/

namespace Sys2Proof.Laws.EncodedFields

/-- The word of `i` has `i`'s opcode, and its reserved fields are 0. -/
def Statement (i : Instr) : Prop :=
  (encode i).opc = i.opcode ∧
    i.format.reservedZero (encode i).fieldA (encode i).fieldB (encode i).fieldC (encode i).fieldN = true

theorem ofF0 (o : Byte) : (encodeF0 o).opc = o ∧ Format.reservedZero .f0 (encodeF0 o).fieldA (encodeF0 o).fieldB
    (encodeF0 o).fieldC (encodeF0 o).fieldN = true := by
  simp [encodeF0, Format.reservedZero]

theorem ofFN (o : Byte) (n : Word) : (encodeFN o n).opc = o ∧ Format.reservedZero .fN (encodeFN o n).fieldA
    (encodeFN o n).fieldB (encodeFN o n).fieldC (encodeFN o n).fieldN = true := by
  simp [encodeFN, Format.reservedZero]

theorem ofFB (o t s f : Byte) (n : Word) : (encodeFB o t s f n).opc = o ∧ Format.reservedZero .fB
    (encodeFB o t s f n).fieldA (encodeFB o t s f n).fieldB (encodeFB o t s f n).fieldC
    (encodeFB o t s f n).fieldN = true := by
  simp [encodeFB, Format.reservedZero]

theorem crcCompute : Statement .crcCompute := ofF0 _
theorem crcVerify : Statement .crcVerify := ofF0 _
theorem rbInit (n : Word) : Statement (.rbInit n) := ofFN _ _
theorem rbWrite : Statement .rbWrite := ofF0 _
theorem rbRead (n : Word) : Statement (.rbRead n) := ofFN _ _
theorem rbPeek (n : Word) : Statement (.rbPeek n) := ofFN _ _
theorem rbAvail : Statement .rbAvail := ofF0 _
theorem rbFree : Statement .rbFree := ofF0 _
theorem pParse : Statement .pParse := ofF0 _
theorem pValidate : Statement .pValidate := ofF0 _
theorem pExtract : Statement .pExtract := ofF0 _
theorem pStream : Statement .pStream := ofF0 _
theorem pSkipcnt : Statement .pSkipcnt := ofF0 _
theorem bBuild (type seq flags : Byte) (n : Word) : Statement (.bBuild type seq flags n) := ofFB _ _ _ _ _
theorem bSerialize (type seq flags : Byte) (n : Word) : Statement (.bSerialize type seq flags n) := ofFB _ _ _ _ _

end Sys2Proof.Laws.EncodedFields
end

