-- ==== Sys2Proof/Laws/Stream.lean ====
section
/-! SUPPORT. `Scan()` on the ring buffer is `seqScan` on the sequence of unread bytes (R34, R134). -/

namespace Sys2Proof.Machine

/-- The state after `k` noise bytes are discarded and counted. -/
def afterNoise (s : State) (k : Nat) : State := { discard s k with skip := s.skip + BitVec.ofNat 32 k }

theorem afterNoise_zero {s : State} (h : s.RegsLegal) : afterNoise s 0 = s := by
  rw [afterNoise, discard_zero h]
  simp

theorem dropNoise_afterNoise {s : State} (h : s.RegsLegal) (k : Nat) : dropNoise (afterNoise s k) = afterNoise s (k + 1) := by
  have hd := discard_discard h k 1
  simp only [discard, State.mk.injEq] at hd
  simp only [dropNoise, afterNoise, discard, State.mk.injEq, true_and, and_true]
  exact ⟨hd.2.2.1, hd.2.2.2.1, by rw [BitVec.add_assoc, BitVec.ofNat_add]; rfl⟩

theorem afterNoise_count_toNat (s : State) (k : Nat) : (afterNoise s k).count.toNat = s.count.toNat - k :=
  discard_count_toNat s k

theorem State.RegsLegal.afterNoise {s : State} (h : s.RegsLegal) (k : Nat) : (Machine.afterNoise s k).RegsLegal :=
  h.discard k

theorem State.Inv.afterNoise {s : State} (h : s.Inv) (k : Nat) : (Machine.afterNoise s k).Inv := h.discard k

theorem State.Unread.afterNoise {s : State} {l : List Byte} (hl : s.Unread l) (h : s.RegsLegal) (k : Nat) :
    (Machine.afterNoise s k).Unread (l.drop k) := hl.discard h k

/-- A one-register equation as a fact about its number. -/
theorem word_eq_iff {w : Word} {n : Nat} (hn : n < 2 ^ 32) : w = BitVec.ofNat 32 n ↔ w.toNat = n := by
  rw [← BitVec.toNat_inj, BitVec.toNat_ofNat, Nat.mod_eq_of_lt hn]

/-- The loop of Scan, from a state in which `k` noise bytes are gone: it ends as `seqScan` says. -/
theorem scanLoop_spec {s : State} {l : List Byte} (h : s.RegsLegal) (hl : s.Unread l) (k : Nat) (hk : k ≤ l.length) :
    scanLoop (l.length - k) (afterNoise s k) k =
      .ok ((seqScan s.cap.toNat (l.drop k)).1, k + (seqScan s.cap.toNat (l.drop k)).2,
        afterNoise s (k + (seqScan s.cap.toNat (l.drop k)).2)) := by
  obtain ⟨m, hm⟩ : ∃ m, l.length - k = m := ⟨_, rfl⟩
  induction m generalizing k with
  | zero =>
    have : l.drop k = [] := List.drop_eq_nil_iff.mpr (by omega)
    simp [hm, scanLoop, this, seqScan]
  | succ m ih =>
    have hu := hl.afterNoise h k
    have hr := h.afterNoise k
    have hcount : (afterNoise s k).count.toNat = m + 1 := by rw [afterNoise_count_toNat, ← hl.1, hm]
    have hne : (afterNoise s k).count ≠ 0 := fun h0 => by rw [h0] at hcount; simp at hcount
    have ih' := ih (k + 1) (by omega) (by omega)
    rw [show l.length - (k + 1) = m by omega] at ih'
    rw [hm]
    match hlk : l.drop k, (by rw [List.length_drop, hm] : (l.drop k).length = m + 1) with
    | [b], hlen =>
      have hm0 : m = 0 := by simpa using hlen.symm
      subst hm0
      have hone : (afterNoise s k).count = 1 := (word_eq_iff (n := 1) (by norm_num)).mpr hcount
      have hb0 := hu.ringByte hr (i := 0) (by rw [hlk]; simp)
      simp only [hlk, List.getElem_cons_zero] at hb0
      simp only [scanLoop, hb0, hone, seqScan, dropNoise_afterNoise h]
      by_cases hb : b = SYNC0
      · have hcap : (afterNoise s k).cap = 1 ↔ s.cap.toNat = 1 := word_eq_iff (n := 1) (by norm_num)
        simp only [hb, ne_eq, not_true_eq_false, if_false, if_true, hcap, true_and]
        by_cases hc : s.cap.toNat = 1 <;> simp [hc]
      · simp [hb]
    | b0 :: b1 :: rest, hlen =>
      have hm1 : m ≠ 0 := fun h0 => by subst h0; simp at hlen
      have hone : (afterNoise s k).count ≠ 1 := fun h1 => by rw [h1] at hcount; simp at hcount; omega
      have hb0 := hu.ringByte hr (i := 0) (by rw [hlk]; simp)
      have hb1 := hu.ringByte hr (i := 1) (by rw [hlk]; simp)
      simp only [hlk, List.getElem_cons_zero, List.getElem_cons_succ] at hb0 hb1
      have hdrop : l.drop (k + 1) = b1 :: rest := by
        rw [Nat.add_comm, ← List.drop_drop, List.drop_one] at *
        simpa using congrArg List.tail hlk
      rw [hdrop] at ih'
      simp only [scanLoop, if_neg hne, if_neg hone, hb0, hb1, dropNoise_afterNoise h, ih', seqScan]
      by_cases hs0 : b0 = SYNC0 <;> by_cases hs1 : b1 = SYNC1 <;>
        simp [hs0, hs1, Nat.add_assoc, Nat.add_comm]

/-- `Scan()` is `seqScan` on the unread bytes. -/
theorem scan_spec {s : State} {l : List Byte} (h : s.RegsLegal) (hl : s.Unread l) :
    scan s = .ok ((seqScan s.cap.toNat l).1, (seqScan s.cap.toNat l).2, afterNoise s (seqScan s.cap.toNat l).2) := by
  have := scanLoop_spec h hl 0 (Nat.zero_le _)
  rw [afterNoise_zero h] at this
  simpa [scan, hl.1] using this

/-- Scan discards at most what is there, and with a sync pattern found leaves it at the head. -/
theorem seqScan_spec (cap : Nat) (l : List Byte) :
    (seqScan cap l).2 ≤ l.length ∧
      ((seqScan cap l).1 = true → ∃ rest, l.drop (seqScan cap l).2 = SYNC0 :: SYNC1 :: rest) := by
  fun_induction seqScan cap l with
  | case1 => simp
  | case2 b => split <;> simp
  | case3 b0 b1 rest hs => simp [hs.1, hs.2]
  | case4 b0 b1 rest hs ih => exact ⟨by simpa using ih.1, by simpa using ih.2⟩

end Sys2Proof.Machine
end

