-- ==== Sys2Proof/Laws/Rules.lean ====
section
/-! SUPPORT. What the rules of the ring and stream commands can do: first without any hypothesis on the state (their
frames), then in states that satisfy the invariant (their results). -/

namespace Sys2Proof.Machine

/-! ## Runs -/

/-- A run takes its first step and goes on. -/
theorem run_succ_next {s t : State} (h : step s = .next t) (n : Nat) :
    Host.Core.run Sys2Proof.core (n + 1) s = Host.Core.run Sys2Proof.core n t := by
  have e : ∀ (M : Host.Core) (x y : M.State), M.step x = .next y → M.run (n + 1) x = M.run n y := fun M x y hxy => by
    simp only [Host.Core.run, hxy]
  exact e Sys2Proof.core s t h

/-! ## Frames, in every state -/

/-- If the write loop answers, only STORE changed, and no index but the written ones. -/
theorem ringWrite_frame {s t : State} {j : Nat} {bs : List Byte} (h : ringWrite s j bs = .ok t) :
    t = { s with store := t.store } ∧
      ∀ x, (∀ i < bs.length, x ≠ ringIndex s (j + i)) → Memory.get? t.store x = Memory.get? s.store x := by
  induction bs generalizing s j with
  | nil => cases h; exact ⟨rfl, fun _ _ => rfl⟩
  | cons b bs ih =>
    simp only [ringWrite, memWrite] at h
    split at h
    · cases h
    · next u hu =>
      split at hu
      · cases hu
        obtain ⟨h1, h2⟩ := ih h
        refine ⟨by rw [h1], fun x hx => ?_⟩
        rw [h2 x fun i hi => by
            have := hx (i + 1) (by simpa using hi)
            rwa [show j + (i + 1) = j + 1 + i by omega] at this]
        exact Memory.get?_set_other _ _ (by simpa using hx 0 (by simp))
      · cases hu

/-- Only `RD`, `COUNT` and `SKIP` differ. -/
def SameButCursors (s t : State) : Prop := t = { s with rd := t.rd, count := t.count, skip := t.skip }

theorem SameButCursors.refl (s : State) : SameButCursors s s := rfl

theorem SameButCursors.trans {s t u : State} (h : SameButCursors s t) (h' : SameButCursors t u) : SameButCursors s u := by
  unfold SameButCursors at *
  rw [h', h]

theorem SameButCursors.discard (s : State) (n : Nat) : SameButCursors s (Machine.discard s n) := rfl

theorem SameButCursors.dropNoise (s : State) : SameButCursors s (Machine.dropNoise s) := rfl

theorem scanLoop_frame {fuel : Nat} {s t : State} {k k' : Nat} {found : Bool}
    (h : scanLoop fuel s k = .ok (found, k', t)) : SameButCursors s t := by
  induction fuel generalizing s k with
  | zero => cases h; exact .refl _
  | succ fuel ih =>
    simp only [scanLoop] at h
    split at h
    · cases h; exact .refl _
    split at h
    · cases h
    split at h
    · exact (SameButCursors.dropNoise s).trans (ih h)
    split at h
    · split at h <;> cases h
      · exact .dropNoise _
      · exact .refl _
    split at h
    · cases h
    split at h
    · exact (SameButCursors.dropNoise s).trans (ih h)
    · cases h; exact .refl _

/-- If Scan answers that it found a sync pattern, the pattern is at the head of the state it leaves. -/
theorem scanLoop_found {fuel : Nat} {s t : State} {k k' : Nat} (h : scanLoop fuel s k = .ok (true, k', t)) :
    ringByte t 0 = .ok SYNC0 ∧ ringByte t 1 = .ok SYNC1 := by
  induction fuel generalizing s k with
  | zero => cases h
  | succ fuel ih =>
    simp only [scanLoop] at h
    split at h
    · cases h
    split at h
    · cases h
    next b0 hb0 =>
    split at h
    · exact ih h
    next hs0 =>
    split at h
    · split at h <;> cases h
    split at h
    · cases h
    next b1 hb1 =>
    split at h
    · exact ih h
    next hs1 =>
    cases h
    exact ⟨not_not.mp hs0 ▸ hb0, not_not.mp hs1 ▸ hb1⟩

/-- What the byte loop returns, byte by byte. -/
theorem ringBytes_eq_ok {s : State} {i n : Nat} {out : List Byte} (h : ringBytes s i n = .ok out) :
    out.length = n ∧ ∀ j (hj : j < out.length), ringByte s (i + j) = .ok out[j] := by
  induction n generalizing i out with
  | zero => cases h; simp
  | succ n ih =>
    simp only [ringBytes] at h
    split at h
    · cases h
    next b hb =>
    split at h
    · cases h
    next bs hbs =>
    cases h
    obtain ⟨h1, h2⟩ := ih hbs
    refine ⟨by simp [h1], fun j hj => ?_⟩
    cases j with
    | zero => exact hb
    | succ j =>
      have := h2 j (by simpa using hj)
      rwa [show i + 1 + j = i + (j + 1) by omega] at this

/-- If the reading rule answers, its result is `OK` with as many bytes as it counts. -/
theorem readOut_eq_ok {k : Nat} {s after u : State} {r : Result} (h : readOut k s after = .ok (u, r)) :
    u = after ∧ ∃ out, ringBytes s 0 k = .ok out ∧ r = { status := .ok, value := BitVec.ofNat 32 k, dout := out } := by
  simp only [readOut] at h
  split at h
  · cases h
  · next out ho => cases h; exact ⟨rfl, out, ho, rfl⟩

/-! ## Wire frames -/

/-- The legal range of LENGTH (R72). -/
theorem lengthOutOfRange_iff (l : Nat) : lengthOutOfRange l = true ↔ l < 9 ∨ 1033 < l := by
  simp only [lengthOutOfRange, Bool.or_eq_true, decide_eq_true_eq]
  rfl

/-- A buffer starts with the sync pattern (R130, gate 1). -/
theorem syncAtStart_iff (b : List Byte) : syncAtStart b = true ↔ ∃ rest, b = SYNC0 :: SYNC1 :: rest := by
  match b with
  | [] => simp [syncAtStart]
  | [x] => simp [syncAtStart]
  | x :: y :: rest => simp [syncAtStart, byteAt]

/-- `be16` as a number. -/
theorem be16_toNat (hi lo : Byte) : (be16 hi lo).toNat = hi.toNat * 256 + lo.toNat := by
  have := lo.isLt
  rw [be16, BitVec.toNat_append, Nat.shiftLeft_eq, ← Nat.shiftLeft_eq, ← Nat.shiftLeft_add_eq_or_of_lt this,
    Nat.shiftLeft_eq]

/-- What holds of a buffer that passes every gate, and the frame that is returned. -/
theorem frameCheck_eq_ok {b : List Byte} {f : Frame} (h : frameCheck b = .ok f) :
    (∃ rest, b = SYNC0 :: SYNC1 :: rest) ∧ 5 ≤ b.length ∧ 9 ≤ (lengthField b).toNat ∧
      (lengthField b).toNat ≤ 1033 ∧ (lengthField b).toNat ≤ b.length ∧
      crcOk (slice b 0 (lengthField b).toNat) = true ∧ versionOf (byteAt b 2) = VERSION ∧
      f = extractFrame b (lengthField b) := by
  simp only [frameCheck, Bool.not_eq_true', Bool.or_eq_true, decide_eq_true_eq, lengthOutOfRange_iff, bne_iff_ne] at h
  split_ifs at h with h1 h2 h3 h4 h5 h6
  injection h with h
  refine ⟨(syncAtStart_iff b).mp (by simpa using h2), by omega, by omega, by omega, by omega, by simpa using h5,
    not_not.mp h6, h.symm⟩

/-- The statuses a gate reports. -/
theorem frameCheck_eq_error {b : List Byte} {st : Status} (h : frameCheck b = .error st) :
    st = .invalidArg ∨ st = .noSync ∨ st = .badLength ∨ st = .badCrc ∨ st = .badVersion := by
  unfold frameCheck at h
  split_ifs at h <;> injection h with h <;> simp [← h]

/-- On a buffer that starts with the sync pattern and is as long as its legal LENGTH says, only the checksum and version
gates are left (R135). -/
theorem frameCheck_whole_error {b : List Byte} {st : Status} (hs : ∃ rest, b = SYNC0 :: SYNC1 :: rest)
    (h9 : 9 ≤ b.length) (hle : b.length ≤ 1033) (hl : (lengthField b).toNat = b.length) (h : frameCheck b = .error st) :
    st = .badCrc ∨ st = .badVersion := by
  have hs' := (syncAtStart_iff b).mpr hs
  have hr : lengthOutOfRange (lengthField b).toNat = false := by
    rw [← Bool.not_eq_true, lengthOutOfRange_iff]; omega
  simp only [frameCheck, hs', hr, show b.length ≠ 0 by omega, show ¬b.length < 5 by omega,
    show ¬b.length < (lengthField b).toNat by omega, decide_false, Bool.or_self, Bool.not_true, if_false,
    Bool.false_eq_true] at h
  split_ifs at h <;> injection h with h <;> simp [← h]

/-! ## What each rule can do, in every state -/

/-- A flat parse reports the failing gate, or what the command makes of the frame (R131 to R133). -/
theorem flatResult_cases (b : List Byte) (g : Frame → Result) :
    (∃ st, frameCheck b = .error st ∧ flatResult b g = Result.error st) ∨
      ∃ f, frameCheck b = .ok f ∧ flatResult b g = g f := by
  unfold flatResult
  cases frameCheck b with
  | error st => exact .inl ⟨st, rfl, rfl⟩
  | ok f => exact .inr ⟨f, rfl, rfl⟩

/-- The writer reports its failing check, or the wire frame and its length (R160 to R162). -/
theorem writeResult_cases (type seq flags : Byte) (p : List Byte) (n : Word) :
    (1024 < p.length ∧ writeResult (writeFrame type seq flags p n) = Result.error .badLength) ∨
      (p.length ≤ 1024 ∧ n.toNat < frameLength p ∧
        writeResult (writeFrame type seq flags p n) = Result.error .bufferFull) ∨
      (p.length ≤ 1024 ∧ frameLength p ≤ n.toNat ∧ ∃ out, writeFrame type seq flags p n = .ok out ∧
        writeResult (writeFrame type seq flags p n) =
          { status := .ok, value := BitVec.ofNat 32 out.length, dout := out }) := by
  unfold writeFrame
  split_ifs with h1 h2
  · exact .inl ⟨h1, rfl⟩
  · exact .inr (.inl ⟨not_lt.mp h1, h2, rfl⟩)
  · exact .inr (.inr ⟨not_lt.mp h1, not_lt.mp h2, _, rfl, rfl⟩)

/-- `RB_INIT`'s rule refuses, or initializes (R111). -/
theorem rbInit_cases {n : Word} {s u : State} {r : Result} (h : ruleOf (.rbInit n) s = .ok (u, r)) :
    (badCapacity n s = true ∧ u = s ∧ r = Result.error .invalidArg) ∨
      (badCapacity n s = false ∧ u = initRing n s ∧ r = { status := .ok }) := by
  simp only [ruleOf] at h
  split at h <;> cases h
  · next hb => exact .inl ⟨hb, rfl, rfl⟩
  · next hb => exact .inr ⟨by simpa using hb, rfl, rfl⟩

/-- If `RB_WRITE`'s rule answers: only STORE and COUNT changed, no byte but the written ones, and its result. -/
theorem rbWrite_frame {s u : State} {r : Result} (h : rbWrite s = .ok (u, r)) :
    u = { s with store := u.store, count := u.count } ∧
      r = { status := .ok, value := BitVec.ofNat 32 (writeLength s) } ∧
      ∀ a, (∀ i < writeLength s, a ≠ ringIndex s (s.count.toNat + i)) →
        Memory.get? u.store a = Memory.get? s.store a := by
  unfold rbWrite at h
  split at h
  · cases h
  next t ht =>
  cases h
  obtain ⟨h1, h2⟩ := ringWrite_frame ht
  exact ⟨by rw [h1], rfl, fun a ha => h2 a fun i hi => ha i (by simp at hi; omega)⟩

/-- What the streaming rule's record can be, and that only the cursors moved. -/
structure StreamAnswer (s u : State) (r : Result) : Prop where
  cursors : SameButCursors s u
  dout : r.dout = []
  frameNone : r.status ≠ .ok → r.frame = none
  status : r.status = .ok ∨ r.status = .needMoreData ∨ r.status = .badLength ∨ r.status = .badCrc ∨
    r.status = .badVersion
  frameChecked : ∀ f, r.frame = some f → ∃ b, frameCheck b = .ok f

theorem streamHead_answer {k : Nat} {s u : State} {r : Result} (h : streamHead k s = .ok (u, r))
    (hs : ringByte s 0 = .ok SYNC0 ∧ ringByte s 1 = .ok SYNC1) : StreamAnswer s u r := by
  unfold streamHead at h
  split at h
  · split at h <;> cases h
    · exact ⟨.discard _ _, rfl, fun _ => rfl, by simp, by simp⟩
    · exact ⟨.refl _, rfl, fun _ => rfl, by simp, by simp⟩
  split at h
  · cases h
  next hi hhi =>
  split at h
  · cases h
  next lo hlo =>
  unfold streamBody at h
  split at h
  · cases h; exact ⟨.discard _ _, rfl, fun _ => rfl, by simp, by simp⟩
  split at h
  · cases h; exact ⟨.refl _, rfl, fun _ => rfl, by simp, by simp⟩
  next hr hc =>
  simp only [Bool.or_eq_true, lengthOutOfRange_iff, decide_eq_true_eq, not_or] at hr
  split at h
  · cases h
  next fb hfb =>
  obtain ⟨hl1, hl2⟩ := ringBytes_eq_ok hfb
  have g : ∀ j b, j < fb.length → ringByte s j = .ok b → fb.getD j 0 = b := fun j b hj hb => by
    have := hl2 j hj
    rw [Nat.zero_add, hb] at this
    injection this with this
    simp [hj, this]
  have hlf : lengthField fb = be16 hi lo := by
    rw [lengthField, byteAt, byteAt, g 3 hi (by omega) hhi, g 4 lo (by omega) hlo]
  split at h
  · next st hst =>
    cases h
    have hsync : ∃ rest, fb = SYNC0 :: SYNC1 :: rest := by
      match fb, hl1 with
      | [], h0 => simp at h0; omega
      | [x], h0 => simp at h0; omega
      | x :: y :: rest, h0 =>
        have e0 := g 0 _ (by simp) hs.1
        have e1 := g 1 _ (by simp) hs.2
        simp at e0 e1
        exact ⟨rest, by rw [e0, e1]⟩
    have := frameCheck_whole_error hsync (by omega) (by omega) (by rw [hlf, hl1]) hst
    refine ⟨.discard _ _, rfl, fun _ => rfl, ?_, by simp⟩
    rcases this with rfl | rfl <;> simp
  · next f hf =>
    cases h
    exact ⟨.discard _ _, rfl, fun h => absurd rfl h, .inl rfl, fun f' hf' => ⟨fb, by
      simp only [Option.some.injEq] at hf'
      rw [hf, hf']⟩⟩

/-- If `P_STREAM`'s rule answers (R134, R135): only the cursors moved, and its record. -/
theorem pStream_answer {s u : State} {r : Result} (h : pStream s = .ok (u, r)) : StreamAnswer s u r := by
  unfold pStream at h
  split at h
  · cases h
  · next k t ht => cases h; exact ⟨scanLoop_frame ht, rfl, fun _ => rfl, by simp, by simp⟩
  · next k t ht =>
    have := streamHead_answer h (scanLoop_found ht)
    exact { this with cursors := (scanLoop_frame ht).trans this.cursors }

/-- No rule touches the parameters or the ports; the record it ends with is not yet delivered. -/
theorem ruleOf_ports {i : Instr} {s u : State} {r : Result} (h : ruleOf i s = .ok (u, r)) :
    u.results = s.results ∧ u.params = s.params ∧ u.port = s.port ∧ u.din = s.din := by
  cases i with
  | rbInit n => rcases rbInit_cases h with ⟨-, rfl, -⟩ | ⟨-, rfl, -⟩ <;> simp
  | rbWrite => rw [(rbWrite_frame h).1]; simp
  | rbRead n => rw [(readOut_eq_ok h).1]; simp
  | rbPeek n => rw [(readOut_eq_ok h).1]; simp
  | pStream => have := (pStream_answer h).cursors; unfold SameButCursors at this; rw [this]; simp
  | _ => cases h; simp

/-! ## Results, in states that satisfy the invariant -/

theorem toNat_ofNat_word {n : Nat} (h : n < 2 ^ 32) : (BitVec.ofNat 32 n).toNat = n := by
  rw [BitVec.toNat_ofNat]
  exact Nat.mod_eq_of_lt h

/-- The write index range ends inside the capacity. -/
theorem count_add_writeLength_le {s : State} (h : s.RegsLegal) : s.count.toNat + writeLength s ≤ s.cap.toNat := by
  have := h.2.2.2
  simp only [writeLength, freeSpace]
  omega

theorem writeLength_le_din (s : State) : writeLength s ≤ s.din.length := Nat.min_le_left _ _

/-- `RB_WRITE`'s rule (R112). -/
theorem rbWrite_spec {s : State} (h : s.RegsLegal) : ∃ t,
    rbWrite s = .ok ({ s with store := t.store, count := BitVec.ofNat 32 (s.count.toNat + writeLength s) },
      { status := .ok, value := BitVec.ofNat 32 (writeLength s) }) ∧
    RingWritten s t s.count.toNat (s.din.take (writeLength s)) := by
  have hlen : (s.din.take (writeLength s)).length = writeLength s := by simp [writeLength_le_din]
  obtain ⟨t, ht, hw⟩ := ringWrite_spec h s.count.toNat (s.din.take (writeLength s))
    (by rw [hlen]; exact count_add_writeLength_le h)
  refine ⟨t, ?_, hw⟩
  rw [rbWrite, ht]
  simp only
  rw [hw.frame]

/-- The unread bytes after `RB_WRITE`: those before, then the bytes that fit. -/
theorem RingWritten.unread {s t : State} {l : List Byte} (hl : s.Unread l) (h : s.RegsLegal)
    (hw : RingWritten s t s.count.toNat (s.din.take (writeLength s))) :
    State.Unread { s with store := t.store, count := BitVec.ofNat 32 (s.count.toNat + writeLength s) }
      (l ++ s.din.take (writeLength s)) := by
  have hle := count_add_writeLength_le h
  have hlt := s.cap.isLt
  have hlen : (s.din.take (writeLength s)).length = writeLength s := by simp [writeLength_le_din]
  have hcount : (BitVec.ofNat 32 (s.count.toNat + writeLength s)).toNat = s.count.toNat + writeLength s :=
    toNat_ofNat_word (by omega)
  refine ⟨by simp only [hcount, List.length_append, hlen, hl.1], fun i hi => ?_⟩
  simp only [hcount] at hi
  show Memory.get? t.store (ringIndex s i) = _
  by_cases hc : i < s.count.toNat
  · rw [List.getElem?_append_left (hl.1 ▸ hc), ← hl.2 i hc]
    refine hw.others _ fun j hj he => ?_
    have := ringIndex_inj (s := s) (by omega) (by omega) he
    omega
  · obtain ⟨j, rfl⟩ := Nat.exists_eq_add_of_le (not_lt.mp hc)
    rw [List.getElem?_append_right (by omega), hl.1, hw.written j (by omega), Nat.add_sub_cancel_left,
      List.getElem?_eq_getElem]

/-- The rule of `RB_READ` and `RB_PEEK` (R113, R114). -/
theorem readOut_spec {s : State} {l : List Byte} (h : s.RegsLegal) (hl : s.Unread l) {k : Nat}
    (hk : k ≤ s.count.toNat) (after : State) :
    readOut k s after = .ok (after, { status := .ok, value := BitVec.ofNat 32 k, dout := l.take k }) := by
  rw [readOut, hl.ringBytes h k 0 (by rw [hl.1]; omega)]
  simp

/-- With a sync pattern at the head, `P_STREAM`'s rule does what `seqStreamHead` says to the unread bytes `h`, after `k`
noise bytes (R135). -/
theorem streamHead_spec {s : State} {h : List Byte} (k : Nat) (hR : s.RegsLegal) (hl : s.Unread h)
    (h2 : 2 ≤ h.length) :
    streamHead k s = .ok (discard s ((seqStreamHead s.cap.toNat k h).removed - k), {
        status := (seqStreamHead s.cap.toNat k h).status
        value := BitVec.ofNat 32 (seqStreamHead s.cap.toNat k h).removed
        frame := (seqStreamHead s.cap.toNat k h).frame }) ∧
      k ≤ (seqStreamHead s.cap.toNat k h).removed ∧ (seqStreamHead s.cap.toNat k h).removed ≤ k + h.length ∧
      (seqStreamHead s.cap.toNat k h).noise = k := by
  have hcap : s.count = s.cap ↔ h.length = s.cap.toNat := by rw [hl.1, BitVec.toNat_inj]
  unfold streamHead seqStreamHead
  simp only [hcap, ← hl.1]
  by_cases c1 : h.length < 5
  · simp only [c1, if_true]
    split_ifs
    · simp [streamReject, h2]
    · simp [streamWait, discard_zero hR]
  · have g : ∀ i, (hi : i < h.length) → byteAt h i = h[i] := fun i hi => by simp [byteAt, hi]
    simp only [c1, if_false, hl.ringByte hR (i := 3) (by omega), hl.ringByte hR (i := 4) (by omega), ← g]
    generalize (be16 (byteAt h 3) (byteAt h 4)).toNat = L
    simp only [streamBody, Bool.or_eq_true, decide_eq_true_eq, lengthOutOfRange_iff, or_assoc, ← hl.1]
    split_ifs with c2 c3
    · simp [streamReject, h2]
    · simp [streamWait, discard_zero hR]
    · simp only [hl.ringBytes hR L 0 (by omega), List.drop_zero]
      cases frameCheck (h.take L) with
      | error st => simp [streamReject, h2]
      | ok f => simp [streamAccept]; omega

end Sys2Proof.Machine
end

