-- ==== Sys2Proof/Tests/Slice0.lean ====
section
/-! SUPPORT. Tests: expected results are those of spec/95_test_vectors.md (each names its vector) or written out from
the spec's encodings; then one witness for the hypotheses of each statement. -/

namespace Sys2Proof.Tests.Slice0

open Sys2Proof Sys2Proof.Machine

/-! ## States and answers -/

/-- A block with `RB_MEM_SIZE = 128` and `MAX_INPUT_LEN = 2048` in the state `cap/rd/|unread|/skip [unread]`. -/
def ring (cap rd skip : Nat) (unread : List Byte) : State :=
  let s := { State.resetWith ⟨128, 2048⟩ with
    cap := BitVec.ofNat 32 cap, rd := BitVec.ofNat 32 rd, skip := BitVec.ofNat 32 skip
    count := BitVec.ofNat 32 unread.length }
  match ringWrite s 0 unread with
  | .ok t => t
  | .error _ => s

/-- The state with `din` at the data-in port. -/
def withDin (s : State) (din : List Byte) : State := { s with din := din }

/-- The bytes not yet read, as far as they have a value. -/
def unread (s : State) : List Byte := s.unreadList

/-- The answer of a step. -/
structure Answer where
  result : Option Result
  cap : Word
  rd : Word
  skip : Word
  unread : List Byte
deriving DecidableEq, Repr

/-- The answer to one command, presented at the port; none where the step stops. -/
def issue (s : State) (w : CmdWord) (din : List Byte) : Option Answer :=
  match step { s with port := [.command w din] } with
  | .next t => some ⟨t.results.getLast?, t.cap, t.rd, t.skip, unread t⟩
  | .fault _ => none
  | .refused _ => none

/-- The answer is the record `r` and the state `cap/rd/|l|/skip [l]`. -/
def answers (r : Result) (cap rd skip : Nat) (l : List Byte) : Option Answer :=
  some ⟨some r, BitVec.ofNat 32 cap, BitVec.ofNat 32 rd, BitVec.ofNat 32 skip, l⟩

/-- The last record a rule delivers. -/
def lastResult (o : Host.Outcome State Fault Refusal) : Option Result :=
  match o with
  | .next t => t.results.getLast?
  | .fault _ => none
  | .refused _ => none

/-- The frames of 95_test_vectors.md. -/
def bytesA : List Byte := [0xAA, 0x55, 0x01, 0x00, 0x09, 0x00, 0x01, 0xD0, 0xFB]
def bytesB : List Byte := [0xAA, 0x55, 0x81, 0x00, 0x0B, 0x2A, 0x10, 0x48, 0x69, 0xF6, 0x75]
def bytesBc : List Byte := [0xAA, 0x55, 0x81, 0x00, 0x0B, 0x2A, 0x10, 0x48, 0x69, 0xF6, 0x74]
def bytesC : List Byte := [0xAA, 0x55, 0x11, 0x00, 0x0C, 0x01, 0x03, 0x41, 0x42, 0x43, 0xAA, 0xB7]
def badVersion : List Byte := [0xAA, 0x55, 0x02, 0x00, 0x09, 0x00, 0x01, 0x3E, 0x29]
def frameA : Frame := ⟨0x01, 9, 0x00, 0x01, [], 0xD0FB⟩
def frameB : Frame := ⟨0x81, 11, 0x2A, 0x10, [0x48, 0x69], 0xF675⟩

/-! ## WellFormed: each check refuses an ill-formed term -/

theorem test_wellFormed_accepts : WellFormed ⟨128, 2048⟩ (.rbRead 2) [] ∧ WellFormed ⟨128, 2048⟩ .rbWrite [0x00] := by decide
/-- V-RB-20: DIN on a no-DIN command. -/
theorem test_dinAllowed_refuses : ¬WellFormed.dinAllowed (.rbRead 2) [0x00] ∧ ¬WellFormed ⟨128, 2048⟩ (.rbRead 2) [0x00] := by
  decide
/-- R64 check 4, with the smallest MAX_INPUT_LEN that R1 allows. -/
theorem test_dinFits_refuses : ¬WellFormed.dinFits ⟨128, 1033⟩ (List.replicate 1034 0) ∧
    WellFormed.dinFits ⟨128, 1033⟩ (List.replicate 1033 0) := by
  simp only [WellFormed.dinFits, List.length_replicate]
  omega

/-! ## Decoding: every constructor, its word written out bit by bit from R62 and R63 -/

theorem test_decode_crcCompute :
    decode 0b00010000_00000000_00000000_00000000_00000000_00000000_00000000_00000000 = .ok .crcCompute := by decide

theorem test_decode_crcVerify :
    decode 0b00010001_00000000_00000000_00000000_00000000_00000000_00000000_00000000 = .ok .crcVerify := by decide

theorem test_decode_rbInit :
    decode 0b00100000_00000000_00000000_00000000_10000000_00000000_00000000_01000011 = .ok (.rbInit 0x80000043) := by decide

theorem test_decode_rbWrite :
    decode 0b00100001_00000000_00000000_00000000_00000000_00000000_00000000_00000000 = .ok .rbWrite := by decide

theorem test_decode_rbRead :
    decode 0b00100010_00000000_00000000_00000000_10000000_00000000_00000000_01000101 = .ok (.rbRead 0x80000045) := by decide

theorem test_decode_rbPeek :
    decode 0b00100011_00000000_00000000_00000000_10000000_00000000_00000000_01000110 = .ok (.rbPeek 0x80000046) := by decide

theorem test_decode_rbAvail :
    decode 0b00100100_00000000_00000000_00000000_00000000_00000000_00000000_00000000 = .ok .rbAvail := by decide

theorem test_decode_rbFree :
    decode 0b00100101_00000000_00000000_00000000_00000000_00000000_00000000_00000000 = .ok .rbFree := by decide

theorem test_decode_pParse :
    decode 0b00110000_00000000_00000000_00000000_00000000_00000000_00000000_00000000 = .ok .pParse := by decide

theorem test_decode_pValidate :
    decode 0b00110001_00000000_00000000_00000000_00000000_00000000_00000000_00000000 = .ok .pValidate := by decide

theorem test_decode_pExtract :
    decode 0b00110010_00000000_00000000_00000000_00000000_00000000_00000000_00000000 = .ok .pExtract := by decide

theorem test_decode_pStream :
    decode 0b00110011_00000000_00000000_00000000_00000000_00000000_00000000_00000000 = .ok .pStream := by decide

theorem test_decode_pSkipcnt :
    decode 0b00110100_00000000_00000000_00000000_00000000_00000000_00000000_00000000 = .ok .pSkipcnt := by decide

theorem test_decode_bBuild :
    decode 0b01000000_10000001_01000010_00100100_10000000_00000000_00000000_00010001 = .ok (.bBuild 0x81 0x42 0x24 0x80000011) := by decide

theorem test_decode_bSerialize :
    decode 0b01000001_10000001_01000010_00100100_10000000_00000000_00000000_00010001 = .ok (.bSerialize 0x81 0x42 0x24 0x80000011) := by decide


/-- V-ADM-1 to V-ADM-6, V-ADM-13: reserved opcodes are refused by name. -/
theorem test_reserved_opcodes :
    decode 0x0000000000000000 = .error (.reservedOpcode 0x00) ∧ decode 0x1200000000000000 = .error (.reservedOpcode 0x12) ∧
      decode 0x2600000000000000 = .error (.reservedOpcode 0x26) ∧ decode 0x3500000000000000 = .error (.reservedOpcode 0x35) ∧
      decode 0x4200000000000000 = .error (.reservedOpcode 0x42) ∧ decode 0xFF00000000000000 = .error (.reservedOpcode 0xFF) ∧
      decode 0x0000000000000001 = .error (.reservedOpcode 0x00) := by decide
/-- V-ADM-7 to V-ADM-9, V-RB-21, V-PF-32: a reserved field that is not 0 is refused by name. -/
theorem test_reserved_fields :
    decode 0x1000000000000001 = .error (.reservedField .f0) ∧ decode 0x2400000100000000 = .error (.reservedField .f0) ∧
      decode 0x2000010000000010 = .error (.reservedField .fN) ∧ decode 0x2001000000000002 = .error (.reservedField .fN) ∧
      decode 0x3000000100000000 = .error (.reservedField .f0) := by decide
/-- R67's examples of command text, read. -/
theorem test_text_read :
    readLine "RB_INIT 64" = some (0x2000000000000040, []) ∧
      readLine "B_BUILD 0x10, 0x2A, 0x81, 16" = some (0x40102A8100000010, []) ∧
      readLine "RB_WRITE ; [AA 55 01 00 09 00 01 D0 FB]" = some (0x2100000000000000, bytesA) ∧
      readLine "CRC_COMPUTE ; \"123456789\"" =
        some (0x1000000000000000, [0x31, 0x32, 0x33, 0x34, 0x35, 0x36, 0x37, 0x38, 0x39]) := by decide
/-- R67's examples of command text, written. -/
theorem test_text_written :
    Instr.text (.rbInit 64) [] = "RB_INIT 64" ∧ Instr.text .rbAvail [] = "RB_AVAIL" ∧
      Instr.text .rbWrite bytesA = "RB_WRITE ; [AA 55 01 00 09 00 01 D0 FB]" := by decide

/-! ## The checksum table, as R100 prints it -/

theorem test_crcTable_00 : (List.range 32).map (fun i => crcTable (BitVec.ofNat 8 (0x00 + i))) =
    [0x0000, 0x1021, 0x2042, 0x3063, 0x4084, 0x50A5, 0x60C6, 0x70E7,
      0x8108, 0x9129, 0xA14A, 0xB16B, 0xC18C, 0xD1AD, 0xE1CE, 0xF1EF,
      0x1231, 0x0210, 0x3273, 0x2252, 0x52B5, 0x4294, 0x72F7, 0x62D6,
      0x9339, 0x8318, 0xB37B, 0xA35A, 0xD3BD, 0xC39C, 0xF3FF, 0xE3DE] := by decide

theorem test_crcTable_20 : (List.range 32).map (fun i => crcTable (BitVec.ofNat 8 (0x20 + i))) =
    [0x2462, 0x3443, 0x0420, 0x1401, 0x64E6, 0x74C7, 0x44A4, 0x5485,
      0xA56A, 0xB54B, 0x8528, 0x9509, 0xE5EE, 0xF5CF, 0xC5AC, 0xD58D,
      0x3653, 0x2672, 0x1611, 0x0630, 0x76D7, 0x66F6, 0x5695, 0x46B4,
      0xB75B, 0xA77A, 0x9719, 0x8738, 0xF7DF, 0xE7FE, 0xD79D, 0xC7BC] := by decide

theorem test_crcTable_40 : (List.range 32).map (fun i => crcTable (BitVec.ofNat 8 (0x40 + i))) =
    [0x48C4, 0x58E5, 0x6886, 0x78A7, 0x0840, 0x1861, 0x2802, 0x3823,
      0xC9CC, 0xD9ED, 0xE98E, 0xF9AF, 0x8948, 0x9969, 0xA90A, 0xB92B,
      0x5AF5, 0x4AD4, 0x7AB7, 0x6A96, 0x1A71, 0x0A50, 0x3A33, 0x2A12,
      0xDBFD, 0xCBDC, 0xFBBF, 0xEB9E, 0x9B79, 0x8B58, 0xBB3B, 0xAB1A] := by decide

theorem test_crcTable_60 : (List.range 32).map (fun i => crcTable (BitVec.ofNat 8 (0x60 + i))) =
    [0x6CA6, 0x7C87, 0x4CE4, 0x5CC5, 0x2C22, 0x3C03, 0x0C60, 0x1C41,
      0xEDAE, 0xFD8F, 0xCDEC, 0xDDCD, 0xAD2A, 0xBD0B, 0x8D68, 0x9D49,
      0x7E97, 0x6EB6, 0x5ED5, 0x4EF4, 0x3E13, 0x2E32, 0x1E51, 0x0E70,
      0xFF9F, 0xEFBE, 0xDFDD, 0xCFFC, 0xBF1B, 0xAF3A, 0x9F59, 0x8F78] := by decide

theorem test_crcTable_80 : (List.range 32).map (fun i => crcTable (BitVec.ofNat 8 (0x80 + i))) =
    [0x9188, 0x81A9, 0xB1CA, 0xA1EB, 0xD10C, 0xC12D, 0xF14E, 0xE16F,
      0x1080, 0x00A1, 0x30C2, 0x20E3, 0x5004, 0x4025, 0x7046, 0x6067,
      0x83B9, 0x9398, 0xA3FB, 0xB3DA, 0xC33D, 0xD31C, 0xE37F, 0xF35E,
      0x02B1, 0x1290, 0x22F3, 0x32D2, 0x4235, 0x5214, 0x6277, 0x7256] := by decide

theorem test_crcTable_A0 : (List.range 32).map (fun i => crcTable (BitVec.ofNat 8 (0xA0 + i))) =
    [0xB5EA, 0xA5CB, 0x95A8, 0x8589, 0xF56E, 0xE54F, 0xD52C, 0xC50D,
      0x34E2, 0x24C3, 0x14A0, 0x0481, 0x7466, 0x6447, 0x5424, 0x4405,
      0xA7DB, 0xB7FA, 0x8799, 0x97B8, 0xE75F, 0xF77E, 0xC71D, 0xD73C,
      0x26D3, 0x36F2, 0x0691, 0x16B0, 0x6657, 0x7676, 0x4615, 0x5634] := by decide

theorem test_crcTable_C0 : (List.range 32).map (fun i => crcTable (BitVec.ofNat 8 (0xC0 + i))) =
    [0xD94C, 0xC96D, 0xF90E, 0xE92F, 0x99C8, 0x89E9, 0xB98A, 0xA9AB,
      0x5844, 0x4865, 0x7806, 0x6827, 0x18C0, 0x08E1, 0x3882, 0x28A3,
      0xCB7D, 0xDB5C, 0xEB3F, 0xFB1E, 0x8BF9, 0x9BD8, 0xABBB, 0xBB9A,
      0x4A75, 0x5A54, 0x6A37, 0x7A16, 0x0AF1, 0x1AD0, 0x2AB3, 0x3A92] := by decide

theorem test_crcTable_E0 : (List.range 32).map (fun i => crcTable (BitVec.ofNat 8 (0xE0 + i))) =
    [0xFD2E, 0xED0F, 0xDD6C, 0xCD4D, 0xBDAA, 0xAD8B, 0x9DE8, 0x8DC9,
      0x7C26, 0x6C07, 0x5C64, 0x4C45, 0x3CA2, 0x2C83, 0x1CE0, 0x0CC1,
      0xEF1F, 0xFF3E, 0xCF5D, 0xDF7C, 0xAF9B, 0xBFBA, 0x8FD9, 0x9FF8,
      0x6E17, 0x7E36, 0x4E55, 0x5E74, 0x2E93, 0x3EB2, 0x0ED1, 0x1EF0] := by decide


/-! ## One command at a time -/

/-- V-CRC-1, V-CRC-2. -/
theorem test_crcCompute :
    issue (ring 16 0 0 [1, 2, 3]) 0x1000000000000000 [] = answers { status := .ok, value := 0xFFFF } 16 0 0 [1, 2, 3] ∧
      issue (ring 16 0 0 [1, 2, 3]) 0x1000000000000000 [0x31, 0x32, 0x33, 0x34, 0x35, 0x36, 0x37, 0x38, 0x39] =
        answers { status := .ok, value := 0x29B1 } 16 0 0 [1, 2, 3] := by decide
/-- The trace of 95_test_vectors.md 2.1, its last register value; V-CRC-22. -/
theorem test_crcCompute_trace :
    issue (ring 16 0 0 []) 0x1000000000000000 [0xAA, 0x55, 0x01, 0x00, 0x09, 0x00, 0x01] =
      answers { status := .ok, value := 0xD0FB } 16 0 0 [] ∧
      issue (ring 16 0 0 []) 0x1000000000000001 [0x41] = answers { status := .invalidArg } 16 0 0 [] := by decide
/-- V-CRC-13 to V-CRC-16. -/
theorem test_crcVerify_short :
    [[], [0xFF], [0xFF, 0xFF], [0x00, 0x00]].map (fun d => lastResult (exec .crcVerify (withDin (ring 16 0 0 []) d))) =
      [0, 0, 1, 0].map fun v => some { status := .ok, value := v } := by decide
/-- V-CRC-17, V-CRC-20, V-CRC-21. -/
theorem test_crcVerify_frames :
    [bytesA, bytesBc, bytesB ++ [0x99, 0x98]].map (fun d => lastResult (exec .crcVerify (withDin (ring 16 0 0 []) d))) =
      [1, 0, 0].map fun v => some { status := .ok, value := v } := by decide
/-- V-RB-2 to V-RB-4, with RB_MEM_SIZE = 128. -/
theorem test_rbInit_bounds :
    issue (ring 16 0 0 [1, 2, 3]) 0x2000000000000000 [] = answers { status := .invalidArg } 16 0 0 [1, 2, 3] ∧
      issue (ring 16 0 0 [1, 2, 3]) 0x2000000000000081 [] = answers { status := .invalidArg } 16 0 0 [1, 2, 3] ∧
      issue (ring 16 0 0 [1, 2, 3]) 0x2000000000000080 [] = answers { status := .ok } 128 0 0 [] := by decide
/-- V-RB-22: SKIP is cleared. -/
theorem test_rbInit_clears :
    issue (ring 16 0 5 [1, 2, 3]) 0x2000000000000008 [] = answers { status := .ok } 8 0 0 [] := by decide
/-- V-RB-14, V-RB-15: a short write, and a write to a full buffer. -/
theorem test_rbWrite_short :
    issue (ring 4 0 0 []) 0x2100000000000000 [0x10, 0x11, 0x12, 0x13, 0x14, 0x15] =
      answers { status := .ok, value := 4 } 4 0 0 [0x10, 0x11, 0x12, 0x13] ∧
      issue (ring 4 0 0 [0x10, 0x11, 0x12, 0x13]) 0x2100000000000000 [0x99] =
        answers { status := .ok, value := 0 } 4 0 0 [0x10, 0x11, 0x12, 0x13] := by decide
/-- V-RB-17: a write that wraps. -/
theorem test_rbWrite_wraps :
    issue (ring 4 3 0 [0x13]) 0x2100000000000000 [0x20, 0x21, 0x22] =
      answers { status := .ok, value := 3 } 4 3 0 [0x13, 0x20, 0x21, 0x22] := by decide
/-- V-RB-10, V-RB-11. -/
theorem test_rbRead :
    issue (ring 16 0 0 [1, 2, 3]) 0x2200000000000002 [] =
      answers { status := .ok, value := 2, dout := [1, 2] } 16 2 0 [3] ∧
      issue (ring 16 2 0 [3]) 0x22000000FFFFFFFF [] = answers { status := .ok, value := 1, dout := [3] } 16 3 0 [] := by
  decide
/-- V-RB-18, V-RB-20. -/
theorem test_rbRead_wraps :
    issue (ring 4 3 0 [0x13, 0x20, 0x21, 0x22]) 0x2200000000000004 [] =
      answers { status := .ok, value := 4, dout := [0x13, 0x20, 0x21, 0x22] } 4 3 0 [] ∧
      issue (ring 16 0 0 [1, 2, 3]) 0x2200000000000002 [0x00] = answers { status := .invalidArg } 16 0 0 [1, 2, 3] := by
  decide
/-- V-RB-8. -/
theorem test_rbPeek :
    issue (ring 16 0 0 [1, 2, 3]) 0x2300000000000002 [] =
      answers { status := .ok, value := 2, dout := [1, 2] } 16 0 0 [1, 2, 3] := by decide
/-- V-RB-6. -/
theorem test_rbAvail :
    issue (ring 16 0 0 [1, 2, 3]) 0x2400000000000000 [] = answers { status := .ok, value := 3 } 16 0 0 [1, 2, 3] := by
  decide
/-- V-RB-7, V-RB-16. -/
theorem test_rbFree :
    issue (ring 16 0 0 [1, 2, 3]) 0x2500000000000000 [] = answers { status := .ok, value := 13 } 16 0 0 [1, 2, 3] ∧
      issue (ring 4 0 0 [1, 2, 3, 4]) 0x2500000000000000 [] = answers { status := .ok, value := 0 } 4 0 0 [1, 2, 3, 4] := by
  decide
/-- V-PF-1, V-PF-2, V-PF-5, V-PF-10, V-PF-11, V-PF-14, V-PF-15, V-PF-18: the gates in order. -/
theorem test_pParse_gates :
    [[], [0xAA], [0xAA, 0x55], [0xAA, 0x55, 0x01, 0x00, 0x08, 0x00, 0x01, 0x00, 0x00],
      [0xAA, 0x55, 0x01, 0x04, 0x0A, 0x00, 0x01, 0x00, 0x00], bytesBc, badVersion,
      [0xAA, 0x55, 0x02, 0x00, 0x09, 0x00, 0x01, 0x3E, 0x00]].map
        (fun d => lastResult (exec .pParse (withDin (ring 16 0 0 []) d))) =
      [.invalidArg, .noSync, .badLength, .badLength, .badLength, .badCrc, .badVersion, .badCrc].map
        fun st => some { status := st } := by decide
/-- V-PF-19, V-PF-21. -/
theorem test_pParse_frames :
    issue (ring 16 0 0 [7]) 0x3000000000000000 bytesA = answers { status := .ok, frame := some frameA } 16 0 0 [7] ∧
      issue (ring 16 0 0 [7]) 0x3000000000000000 (bytesB ++ [0x99, 0x98]) =
        answers { status := .ok, frame := some frameB } 16 0 0 [7] := by decide
/-- V-PF-25 to V-PF-28. -/
theorem test_pValidate :
    [bytesB, bytesBc, badVersion, []].map (fun d => lastResult (exec .pValidate (withDin (ring 16 0 0 []) d))) =
      [some { status := .ok, value := 1 }, some { status := .badCrc }, some { status := .badVersion },
        some { status := .invalidArg }] := by decide
/-- V-PF-29 to V-PF-31. -/
theorem test_pExtract :
    [bytesC, bytesA, [0xAA]].map (fun d => lastResult (exec .pExtract (withDin (ring 16 0 0 []) d))) =
      [some { status := .ok, value := 3, dout := [0x41, 0x42, 0x43] }, some { status := .ok },
        some { status := .noSync }] := by decide
/-- V-PS-5: only the first `AA` is noise. -/
theorem test_pStream_noise :
    issue (ring 64 0 0 (0xAA :: bytesA)) 0x3300000000000000 [] =
      answers { status := .ok, value := 10, frame := some frameA } 64 10 1 [] := by decide
/-- V-PS-12, V-PS-14, V-PS-15: a failed gate removes 2 bytes; small capacities. -/
theorem test_pStream_rejects :
    issue (ring 64 0 0 bytesBc) 0x3300000000000000 [] = answers { status := .badCrc, value := 2 } 64 2 0 (bytesBc.drop 2) ∧
      issue (ring 1 0 0 [0xAA]) 0x3300000000000000 [] = answers { status := .needMoreData, value := 1 } 1 0 1 [] ∧
      issue (ring 4 0 0 [0xAA, 0x55, 0x00, 0x09]) 0x3300000000000000 [] =
        answers { status := .badLength, value := 2 } 4 2 0 [0x00, 0x09] := by decide
/-- V-PS-20, V-ADM-11. -/
theorem test_pSkipcnt :
    issue (ring 64 25 5 []) 0x3400000000000000 [] = answers { status := .ok, value := 5 } 64 25 5 [] ∧
      issue (ring 64 25 5 []) 0x3400000000000000 [0x00] = answers { status := .invalidArg } 64 25 5 [] := by decide
/-- V-B-2, V-B-4: the wire bytes, and the VERSION the builder writes. -/
theorem test_bBuild :
    issue (ring 16 0 0 []) 0x40102A8100000010 [0x48, 0x69] =
      answers { status := .ok, value := 11, dout := bytesB } 16 0 0 [] ∧
      issue (ring 16 0 0 []) 0x4002070000000010 [0xAA, 0x55] =
        answers { status := .ok, value := 11, dout := [0xAA, 0x55, 0x01, 0x00, 0x0B, 0x07, 0x02, 0xAA, 0x55, 0xFF, 0x48] }
          16 0 0 [] := by decide
/-- V-B-10, V-B-12. -/
theorem test_bBuild_full :
    issue (ring 16 0 0 []) 0x40102A810000000A [0x48, 0x69] = answers { status := .bufferFull } 16 0 0 [] ∧
      issue (ring 16 0 0 []) 0x4001000100000000 [] = answers { status := .bufferFull } 16 0 0 [] := by decide
/-- V-B-13, V-B-14. -/
theorem test_bSerialize :
    issue (ring 16 0 0 []) 0x410301110000000C [0x41, 0x42, 0x43] =
      answers { status := .ok, value := 12, dout := bytesC } 16 0 0 [] ∧
      issue (ring 16 0 0 []) 0x4122059000000010 [0x01, 0x02] =
        answers { status := .ok, value := 11, dout := [0xAA, 0x55, 0x91, 0x00, 0x0B, 0x05, 0x22, 0x01, 0x02, 0xE3, 0xF2] }
          16 0 0 [] := by decide
/-- R190, R200: the first command after reset runs, whatever the parameters are; STORE is not touched by it. -/
theorem test_reset_runs :
    lastResult (step (State.reset.withFetchWord 64 0x2400000000000000)) = some { status := .ok, value := 0 } := by decide

/-! ## Witnesses: for each statement with hypotheses, states and operands that meet all of them -/

/-- The states the witnesses use: the smallest buffer, a full one that wraps, one with room, and the largest capacity. -/
def full1 : State := ring 1 0 0 [0xAA]
def full4 : State := ring 4 3 0 [0x13, 0x20, 0x21, 0x22]
def room16 : State := ring 16 0 5 [1, 2, 3]
def empty128 : State := ring 128 127 0xFFFFFFFF []
/-- A state with a DIN one byte longer than `MAX_INPUT_LEN`, and one with a DIN exactly that long. -/
def tooLong : State := withDin (State.resetWith ⟨128, 1033⟩) (List.replicate 1034 0)
def longest : State := withDin (State.resetWith ⟨128, 1033⟩) (List.replicate 1033 0)

theorem witness_inv : full1.Inv ∧ full4.Inv ∧ room16.Inv ∧ empty128.Inv := by decide
theorem witness_inv_is_no_theorem : ¬{ full4 with store := [] }.Inv ∧ ¬{ full4 with rd := 4 }.Inv := by decide
theorem witness_unread : full1.Unread [0xAA] ∧ full4.Unread [0x13, 0x20, 0x21, 0x22] ∧ room16.Unread [1, 2, 3] ∧
    empty128.Unread [] := by decide
theorem witness_legal : Params.Legal ⟨1, 1033⟩ ∧ Params.Legal ⟨4294967295, 1033⟩ ∧ Params.Legal ⟨128, 2048⟩ := by decide
theorem witness_dinEmpty : full1.din = [] ∧ full4.din = [] ∧ room16.din = [] ∧ empty128.din = [] := by decide
theorem witness_dinNotEmpty : (withDin full4 [0]).din ≠ [] := by decide
theorem witness_dinTooLong : tooLong.params.maxInputLen < tooLong.din.length := by
  simp only [tooLong, withDin, State.resetWith, List.length_replicate]
  omega
theorem witness_dinLongest : longest.din.length ≤ longest.params.maxInputLen := by
  simp only [longest, withDin, State.resetWith, List.length_replicate]
  omega

/-! ### Encoding and the port -/

theorem witness_EncodeDecodeRoundTrip : decode 0x4081422480000011 = .ok (.bBuild 0x81 0x42 0x24 0x80000011) := by decide
/-- Each check of R64 fails on some command, the last with the shortest DIN that is too long. -/
theorem witness_AdmissionChecks_fails :
    (0x1200000000000000 : CmdWord).toNat / 2 ^ 56 ∉ [0x10, 0x11, 0x21, 0x24, 0x25, 0x30, 0x31, 0x32, 0x33, 0x34] ++
        [0x20, 0x22, 0x23] ++ [0x40, 0x41] ∧
      (0x1000000000000001 : CmdWord).toNat / 2 ^ 56 = 0x10 ∧ (0x1000000000000001 : CmdWord).toNat % 2 ^ 56 ≠ 0 ∧
      (0x2000000100000010 : CmdWord).toNat / 2 ^ 56 = 0x20 ∧ (0x2000000100000010 : CmdWord).toNat / 2 ^ 32 % 2 ^ 24 ≠ 0 ∧
      (0x2300000000000003 : CmdWord).toNat / 2 ^ 56 = 0x23 ∧ tooLong.params.maxInputLen < tooLong.din.length :=
  ⟨by decide, by decide, by decide, by decide, by decide, by decide, witness_dinTooLong⟩
theorem witness_AdmissionChecks_passes :
    ∃ s : State, s.port = .command 0x20000000FFFFFFFF [] :: [.reset] ∧ decode 0x20000000FFFFFFFF = .ok (.rbInit 0xFFFFFFFF) ∧
      WellFormed s.params (.rbInit 0xFFFFFFFF) [] :=
  ⟨{ room16 with port := [.command 0x20000000FFFFFFFF [], .reset] }, rfl, by decide, by decide⟩
theorem witness_StepRunsDecodedCommand :
    ∃ s : State, s.port = .command 0x2200000000000002 [0x00] :: [] ∧ decode 0x2200000000000002 = .ok (.rbRead 2) :=
  ⟨{ room16 with port := [.command 0x2200000000000002 [0x00]] }, rfl, by decide⟩
theorem witness_IdleStepChangesNothing : room16.port = [] := by decide
theorem witness_ResetLeavesEmptyBuffer :
    ∃ (s u : State) (n : Word), s.params.Legal ∧ s.port = .reset :: [] ∧ u.din = [] ∧ u.params = s.params ∧
      n.toNat = s.params.rbMemSize ∧ s.count ≠ 0 ∧ u.count ≠ 0 :=
  ⟨{ full4 with port := [.reset] }, room16, 128, by decide⟩
theorem witness_ResetEventKeepsPorts : ∃ s t : State, s.port = .reset :: [.command 0x2200000000000002 []] ∧
    step s = .next t := ⟨{ full4 with port := [.reset, .command 0x2200000000000002 []] }, _, rfl, rfl⟩
theorem witness_LaterCommandsInvisible :
    ∃ s t : State, s.port = [.command 0x2200000000000002 [], .reset, .command 0x1200000000000000 []] ∧
      Host.Core.run Sys2Proof.core 3 s = .next t :=
  ⟨{ room16 with port := [.command 0x2200000000000002 [], .reset, .command 0x1200000000000000 []] }, _, rfl, rfl⟩

/-! ### Whole-machine rules -/

theorem witness_StepKeepsInvariant : ∃ s t : State, s.Inv ∧ step s = .next t ∧ t ≠ s :=
  ⟨{ room16 with port := [.command 0x2200000000000002 []] }, _, by decide, rfl, by decide⟩
theorem witness_OneResultPerCommand :
    (∃ s t : State, s.port = .command 0x1200000000000000 [] :: [] ∧ step s = .next t) ∧
      ∃ s t : State, s.port = .command 0x2200000000000002 [] :: [.reset] ∧ step s = .next t :=
  ⟨⟨{ room16 with port := [.command 0x1200000000000000 []] }, _, rfl, rfl⟩,
    ⟨{ room16 with port := [.command 0x2200000000000002 [], .reset] }, _, rfl, rfl⟩⟩
/-- A command that ends with an error, and one that is not among those a clause names, so that the clause bites. -/
theorem witness_UnnamedResultFieldsDefault :
    (∃ (t : State) (r : Result), exec (.rbInit 0) room16 = .next t ∧ t.results = room16.results ++ [r] ∧ r.status ≠ .ok) ∧
      (∃ (t : State) (r : Result), exec .pValidate (withDin room16 bytesA) = .next t ∧
        t.results = room16.results ++ [r] ∧ r.status = .ok ∧ r.value ≠ 0) :=
  ⟨⟨_, _, rfl, rfl, by decide⟩, ⟨_, _, rfl, rfl, by decide, by decide⟩⟩
/-- Every status but `NO_MEMORY` is returned, by a command of each kind that may return it. -/
theorem witness_StatusCodesReturned :
    [lastResult (exec .pStream empty128), lastResult (exec (.rbRead 1) (withDin full4 [0])),
      lastResult (exec .pParse full4), lastResult (exec (.rbInit 129) full4),
      lastResult (exec .pExtract (withDin full4 [0xAA])), lastResult (exec .pParse (withDin full4 [0xAA, 0x55])),
      lastResult (exec .pStream (ring 4 0 0 [0xAA, 0x55, 0x00, 0x09])), lastResult (exec .pValidate (withDin full4 bytesBc)),
      lastResult (exec .pStream (ring 64 0 0 bytesBc)), lastResult (exec (.bBuild 1 2 3 8) full4),
      lastResult (exec .pParse (withDin full4 badVersion)), lastResult (exec .pStream (ring 64 0 0 badVersion))].map
        (fun r => r.map Result.status) =
      [some .needMoreData, some .invalidArg, some .invalidArg, some .invalidArg, some .noSync, some .badLength,
        some .badLength, some .badCrc, some .badCrc, some .bufferFull, some .badVersion, some .badVersion] := by decide
theorem witness_ErrorsChangeNoState :
    ∃ (t : State) (r : Result), exec (.bBuild 1 2 3 8) full4 = .next t ∧ t.results = full4.results ++ [r] ∧
      r.status ≠ .ok ∧ Instr.bBuild 1 2 3 8 ≠ .pStream := ⟨_, _, rfl, rfl, by decide, by decide⟩
/-- Each register and STORE is written by a command that may. -/
theorem witness_StateWriters :
    (∃ t : State, exec (.rbInit 8) room16 = .next t ∧ t.cap ≠ room16.cap ∧ t.count ≠ room16.count ∧ t.skip ≠ room16.skip) ∧
      (∃ t : State, exec (.rbRead 2) room16 = .next t ∧ t.rd ≠ room16.rd ∧ t.count ≠ room16.count) ∧
      (∃ t : State, exec .pStream room16 = .next t ∧ t.rd ≠ room16.rd ∧ t.skip ≠ room16.skip) ∧
      (∃ t : State, exec .rbWrite (withDin room16 [9]) = .next t ∧ t.store ≠ room16.store ∧ t.count ≠ room16.count) :=
  ⟨⟨_, rfl, by decide, by decide, by decide⟩, ⟨_, rfl, by decide, by decide⟩, ⟨_, rfl, by decide, by decide⟩,
    ⟨_, rfl, by decide, by decide⟩⟩
theorem witness_ReadOnlyCommandsChangeNothing : ∃ t : State, changesNoState (.rbPeek 2) = true ∧
    exec (.rbPeek 2) full4 = .next t := ⟨_, rfl, rfl⟩
theorem witness_CursorCommandsFrame :
    (∃ t : State, exec (.rbInit 8) full4 = .next t) ∧ (∃ t : State, exec (.rbRead 2) full4 = .next t) ∧
      (∃ t : State, exec .pStream full4 = .next t) := ⟨⟨_, rfl⟩, ⟨_, rfl⟩, ⟨_, rfl⟩⟩
/-- Two bytes are written, at the indices 3 and 4 after the write index; index 5 is none of them. -/
theorem witness_RbWriteFrame : ∃ t : State, exec .rbWrite (withDin room16 [9, 9]) = .next t ∧
    writeLength (withDin room16 [9, 9]) = 2 ∧ ∀ i < 2, (5 : Nat) ≠ ringIndex (withDin room16 [9, 9]) (room16.count.toNat + i) :=
  ⟨_, rfl, by decide, by decide⟩
theorem witness_ParametersNeverChange : ∃ t : State, step { room16 with port := [.reset] } = .next t := ⟨_, rfl⟩
/-- The same unread bytes at another place, over other stale bytes. -/
theorem witness_CursorAndStaleBytesUnobservable :
    ∃ s t s' : State, s.Inv ∧ t.Inv ∧ s.SameView t ∧ s ≠ t ∧ step s = .next s' :=
  ⟨{ ring 4 3 0 [0x13, 0x20] with port := [.command 0x2200000000000002 []] },
    { ring 4 1 0 [0x13, 0x20] with port := [.command 0x2200000000000002 []] }, _, by decide, by decide, by decide,
    by decide, rfl⟩
theorem witness_StatelessResultsIndependent : stateless .crcVerify = true ∧ (withDin room16 bytesA).din = (withDin full4 bytesA).din ∧
    (withDin room16 bytesA).params = (withDin full4 bytesA).params := by decide

/-! ### Checksum engine -/

/-- A valid checksum, and the first and the last bit of the bytes it covers. -/
theorem witness_CrcDetectsSingleBitFlip : crcOk bytesB = true ∧ 0 < bytesB.length ∧ 10 < bytesB.length ∧ 7 < 8 := by decide
/-- `CRC_COMPUTE` and `CRC_VERIFY`: the longest DIN, one byte more, and both answers. -/
theorem witness_CrcVerifyResult : longest.din.length ≤ longest.params.maxInputLen ∧
    tooLong.params.maxInputLen < tooLong.din.length ∧ crcOk (withDin room16 [0xFF, 0xFF]).din = true ∧
    crcOk (withDin room16 [0xFF]).din = false := ⟨witness_dinLongest, witness_dinTooLong, by decide, by decide⟩

/-! ### Ring buffer -/

/-- `RB_INIT`: the capacities 1 and RB_MEM_SIZE are accepted; 0 and RB_MEM_SIZE + 1 are not, nor is a DIN. -/
theorem witness_RbInitResult : room16.din = [] ∧ (1 : Word) ≠ 0 ∧ (1 : Word).toNat ≤ room16.params.rbMemSize ∧
    (128 : Word).toNat ≤ room16.params.rbMemSize ∧ room16.params.rbMemSize < (129 : Word).toNat ∧
    (withDin room16 [0]).din ≠ [] := by decide
/-- `RB_WRITE`: an empty DIN, a DIN that fits exactly, a longer one, into a full buffer, and one that is refused. -/
theorem witness_RbWriteResult : room16.Inv ∧ full4.Inv ∧ room16.din.length = 0 ∧
    min (withDin room16 (List.replicate 13 9)).din.length (room16.cap.toNat - room16.count.toNat) = 13 ∧
    min (withDin room16 (List.replicate 14 9)).din.length (room16.cap.toNat - room16.count.toNat) = 13 ∧
    min (withDin full4 [9]).din.length (full4.cap.toNat - full4.count.toNat) = 0 ∧
    (withDin room16 (List.replicate 14 9)).din.length ≤ room16.params.maxInputLen ∧
    tooLong.params.maxInputLen < tooLong.din.length :=
  ⟨by decide, by decide, by decide, by decide, by decide, by decide, by decide, witness_dinTooLong⟩
/-- `RB_READ`, `RB_PEEK`: a maximum length of 0, of COUNT, and beyond it; an empty buffer; a DIN. -/
theorem witness_RbReadResult : full4.Inv ∧ full4.din = [] ∧ empty128.Inv ∧ empty128.din = [] ∧
    min (0 : Word).toNat full4.count.toNat = 0 ∧ min (4 : Word).toNat full4.count.toNat = 4 ∧
    min (0xFFFFFFFF : Word).toNat full4.count.toNat = 4 ∧ (withDin full4 [0]).din ≠ [] := by decide
theorem witness_RbFreeResult : full4.Inv ∧ full4.din = [] ∧ empty128.Inv ∧ empty128.din = [] ∧ (withDin full4 [0]).din ≠ [] := by
  decide
theorem witness_AvailPlusFreeIsCapacity : ∃ s : State, s.Inv ∧
    s.port = .command 0x2400000000000000 [] :: .command 0x2500000000000000 [] :: [.reset] :=
  ⟨{ full4 with port := [.command 0x2400000000000000 [], .command 0x2500000000000000 [], .reset] }, by decide, rfl⟩
theorem witness_CommandsActOnUnreadSequence : (withDin full4 [9]).Inv ∧
    (withDin full4 [9]).Unread [0x13, 0x20, 0x21, 0x22] ∧ (withDin full4 [9]).din.length ≤ full4.params.maxInputLen ∧
    full4.Inv ∧ full4.Unread [0x13, 0x20, 0x21, 0x22] ∧ full4.din = [] := by decide
theorem witness_FifoOrderKept : ∃ s t : State, s.Inv ∧ History.Holds ⟨[7, 0x13, 0x20], [7]⟩ s ∧ step s = .next t ∧ t ≠ s :=
  ⟨{ ring 4 3 0 [0x13, 0x20] with port := [.command 0x2200000000000001 []] }, _, by decide, by decide, rfl, by decide⟩

/-! ### Parser -/

/-- Every gate is decided both ways, LENGTH at its bounds: 8 and 9, 1033 and 1034, the buffer's length and one more. -/
theorem witness_FrameCheckGates_noSync : ([0xAA] : List Byte) ≠ [] ∧ ¬∃ rest : List Byte, [0xAA] = 0xAA :: 0x55 :: rest := by
  simp
theorem witness_FrameCheckGates_lengths : ([0x01, 0x00] : List Byte).length < 3 ∧
    (0x00 : Byte).toNat * 256 + (0x08 : Byte).toNat < 9 ∧ 1033 < (0x04 : Byte).toNat * 256 + (0x0A : Byte).toNat ∧
    9 ≤ (0x00 : Byte).toNat * 256 + (0x09 : Byte).toNat ∧ (0x04 : Byte).toNat * 256 + (0x09 : Byte).toNat ≤ 1033 ∧
    (0x00 : Byte).toNat * 256 + (0x0B : Byte).toNat ≤ bytesB.length ∧
    (bytesB.take 10).length < (0x00 : Byte).toNat * 256 + (0x0B : Byte).toNat := by decide
theorem witness_FrameCheckGates_crc : crcOk (bytesBc.take 11) = false ∧ crcOk (badVersion.take 9) = true ∧
    (0x02 : Byte).toNat % 16 ≠ 1 ∧ crcOk (bytesB.take 11) = true ∧ (0x81 : Byte).toNat % 16 = 1 := by decide
theorem witness_PParseResult : frameCheck (withDin room16 bytesB).din = .ok frameB ∧
    frameCheck (withDin room16 bytesBc).din = .error .badCrc ∧ (withDin room16 bytesB).din.length ≤ room16.params.maxInputLen ∧
    tooLong.params.maxInputLen < tooLong.din.length := ⟨by decide, by decide, by decide, witness_dinTooLong⟩
theorem witness_ReturnedFramesAreConsistent : ∃ (t : State) (r : Result), exec .pParse (withDin room16 bytesB) = .next t ∧
    t.results = room16.results ++ [r] ∧ r.frame = some frameB := ⟨_, _, rfl, rfl, by decide⟩
theorem witness_PStreamResult : full1.Inv ∧ full1.Unread [0xAA] ∧ full1.din = [] ∧ (withDin full1 [0]).din ≠ [] := by decide
/-- A full buffer, and a wait that removes nothing. -/
theorem witness_PStreamProgress :
    (∃ (t : State) (r : Result), full1.Inv ∧ full1.din = [] ∧ exec .pStream full1 = .next t ∧
      t.results = full1.results ++ [r] ∧ full1.count = full1.cap) ∧
    ∃ (t : State) (r : Result), (ring 16 0 0 [0xAA]).Inv ∧ (ring 16 0 0 [0xAA]).din = [] ∧
      exec .pStream (ring 16 0 0 [0xAA]) = .next t ∧ t.results = (ring 16 0 0 [0xAA]).results ++ [r] ∧
      r.status = .needMoreData ∧ r.value = 0 :=
  ⟨⟨_, _, by decide, rfl, rfl, rfl, rfl⟩, ⟨_, _, by decide, rfl, rfl, rfl, rfl, rfl⟩⟩
theorem witness_FrameAfterNoiseIsReturned :
    (ring 64 60 0 ([0x11, 0x55] ++ bytesA ++ [0x99])).Inv ∧ (ring 64 60 0 ([0x11, 0x55] ++ bytesA ++ [0x99])).din = [] ∧
      (ring 64 60 0 ([0x11, 0x55] ++ bytesA ++ [0x99])).Unread ([0x11, 0x55] ++ bytesA ++ [0x99]) ∧
      0xAA ∉ ([0x11, 0x55] : List Byte) ∧ frameCheck bytesA = .ok frameA ∧
      bytesA.length = frameA.totalLength.toNat := by decide
/-- Frame `Bc` before frame `A`; the shortest body has 4 bytes. -/
theorem witness_FrameAfterCorruptFrameIsReturned :
    (ring 64 60 0 (bytesBc ++ bytesA ++ [])).Inv ∧ (ring 64 60 0 (bytesBc ++ bytesA ++ [])).din = [] ∧
      (ring 64 60 0 (bytesBc ++ bytesA ++ [])).Unread
        ((0xAA :: 0x55 :: 0x81 :: 0x00 :: 0x0B :: [0x2A, 0x10, 0x48, 0x69, 0xF6, 0x74]) ++ bytesA ++ []) ∧
      ([0x2A, 0x10, 0x48, 0x69, 0xF6, 0x74] : List Byte).length + 5 = (0x00 : Byte).toNat * 256 + (0x0B : Byte).toNat ∧
      crcOk (0xAA :: 0x55 :: 0x81 :: 0x00 :: 0x0B :: [0x2A, 0x10, 0x48, 0x69, 0xF6, 0x74]) = false ∧
      0xAA ∉ (0x81 :: 0x00 :: 0x0B :: [0x2A, 0x10, 0x48, 0x69, 0xF6, 0x74] : List Byte) ∧
      frameCheck bytesA = .ok frameA ∧ bytesA.length = frameA.totalLength.toNat := by decide
/-- The first 5 bytes of frame `F20`, in a buffer of exactly its length. -/
theorem witness_PartialFrameIsLeft :
    (ring 20 0 0 [0xAA, 0x55, 0x41, 0x00, 0x14]).Inv ∧ (ring 20 0 0 [0xAA, 0x55, 0x41, 0x00, 0x14]).din = [] ∧
      (ring 20 0 0 [0xAA, 0x55, 0x41, 0x00, 0x14]).Unread (0xAA :: 0x55 :: 0x41 :: 0x00 :: 0x14 :: []) ∧
      9 ≤ (0x00 : Byte).toNat * 256 + (0x14 : Byte).toNat ∧ (0x00 : Byte).toNat * 256 + (0x14 : Byte).toNat ≤ 1033 ∧
      (0x00 : Byte).toNat * 256 + (0x14 : Byte).toNat ≤ (ring 20 0 0 [0xAA, 0x55, 0x41, 0x00, 0x14]).cap.toNat ∧
      ([] : List Byte).length + 5 < (0x00 : Byte).toNat * 256 + (0x14 : Byte).toNat := by decide

/-! ### Builder -/

/-- The longest payload and one byte more; a destination that fits exactly and one byte less. -/
theorem witness_BBuildResult : (List.replicate 1024 (0 : Byte)).length ≤ 1024 ∧ 1024 < (List.replicate 1025 (0 : Byte)).length ∧
    (withDin room16 [1, 2]).din.length ≤ room16.params.maxInputLen ∧ (10 : Word).toNat < 9 + (withDin room16 [1, 2]).din.length ∧
    9 + (withDin room16 [1, 2]).din.length ≤ (11 : Word).toNat ∧ tooLong.params.maxInputLen < tooLong.din.length :=
  ⟨by rw [List.length_replicate], by rw [List.length_replicate]; omega, by decide, by decide, by decide,
    witness_dinTooLong⟩
theorem witness_BSerializeResult : (withDin room16 [0x48, 0x69]).din = frameB.payload := by decide
theorem witness_ParseInvertsBuild : room16.params.Legal ∧ (withDin room16 [0x48, 0x69]).din.length ≤ 1024 ∧
    9 + (withDin room16 [0x48, 0x69]).din.length ≤ (11 : Word).toNat ∧ (0x81 : Byte).toNat % 16 = 1 := by decide
/-- Frame `B` written into an empty buffer of exactly its length, at an index from which it wraps. -/
theorem witness_StreamReturnsWrittenFrame : (withDin (ring 11 7 3 []) bytesB).Inv ∧
    writeFrame 0x10 0x2A 0x81 [0x48, 0x69] 11 = .ok bytesB ∧ (withDin (ring 11 7 3 []) bytesB).count = 0 ∧
    bytesB.length ≤ (withDin (ring 11 7 3 []) bytesB).cap.toNat ∧ (withDin (ring 11 7 3 []) bytesB).din = bytesB ∧
    (0x81 : Byte).toNat % 16 = 1 := by decide

end Sys2Proof.Tests.Slice0
end

namespace Sys2Proof.Machine

/-! ## The block and its commands (00_scope.md) -/

/-- A command leaves the parameters alone (R1): turned away, it only delivers a record; run, its rule keeps them. -/
theorem exec_params {i : Instr} {s t : State} (h : exec i s = .next t) : t.params = s.params := by
  obtain ⟨-, rfl⟩ | ⟨-, u, r, hrule, rfl⟩ := exec_eq_next_cases h
  · exact State.deliver_params s _
  · obtain ⟨-, hparams, -, -⟩ := ruleOf_ports hrule
    exact hparams

/-- A word that decodes to a command runs that command (R7). -/
theorem runWord_ok {w : CmdWord} {i : Instr} (h : decode w = .ok i) (s : State) : runWord w s = exec i s := by
  rw [runWord, h]

/-- A word that is no command is rejected (R64 checks 1 and 2). -/
theorem runWord_error {w : CmdWord} {e : DecodeError} (h : decode w = .error e) (s : State) :
    runWord w s = .next (rejectWord e s) := by
  rw [runWord, h]

/-- A presented word leaves the parameters alone (R1), a command or not. -/
theorem runWord_params {w : CmdWord} {s t : State} (h : runWord w s = .next t) : t.params = s.params := by
  cases hw : decode w with
  | ok i =>
    rw [runWord_ok hw] at h
    exact exec_params h
  | error e =>
    rw [runWord_error hw] at h
    injection h with h
    rw [← h, rejectWord, State.deliver_params]

/-- Settles O25, by the next event at the port: none, a reset, or a presented word. -/
theorem parametersNeverChange : Obligations.ParametersNeverChange := by
  intro s t h
  cases hp : s.port with
  | nil =>
    rw [step_nil hp] at h
    injection h with h
    rw [h]
  | cons e rest =>
    cases e with
    | reset =>
      rw [step_reset hp] at h
      injection h with h
      rw [← h, applyReset_params]
    | command w din =>
      rw [step_command hp] at h
      rw [runWord_params h]

/-- Settles O7: the step presents the word, and the word decodes to `i`. -/
theorem stepRunsDecodedCommand : Obligations.StepRunsDecodedCommand := by
  intro s w din rest i hp hw
  rw [step_command hp, runWord_ok hw]

end Sys2Proof.Machine

namespace Sys2Proof.Machine

/-! ## What a step can do (10_state.md R31, 20_memory.md R45) -/

/-- An admitted command whose rule answers ends with that state and record (R27). -/
theorem exec_of_ruleOf {i : Instr} {s u : State} {r : Result} (hwf : WellFormed s.params i s.din)
    (h : ruleOf i s = .ok (u, r)) : exec i s = .next (u.deliver r) := by
  rw [exec_admitted hwf, h, complete_ok]

/-- What a presented word can do, if it ends: it is turned away with `INVALID_ARG`, as no command or for its operand
(R64), or it is a command whose rule ended so. -/
theorem runWord_eq_next_cases {w : CmdWord} {s t : State} (h : runWord w s = .next t) :
    t = s.deliver (Result.error .invalidArg) ∨ ∃ i u r, ruleOf i s = .ok (u, r) ∧ t = u.deliver r := by
  cases hw : decode w with
  | error e =>
    rw [runWord_error hw, rejectWord] at h
    injection h with h
    exact .inl h.symm
  | ok i =>
    rw [runWord_ok hw] at h
    obtain ⟨-, ht⟩ | ⟨-, u, r, hrule, ht⟩ := exec_eq_next_cases h
    · exact .inl ht
    · exact .inr ⟨i, u, r, hrule, ht⟩

/-- What a step can do, by the next event at the port. -/
theorem step_eq_next_cases {s t : State} (h : step s = .next t) :
    (s.port = [] ∧ t = s) ∨
      (∃ rest, s.port = .reset :: rest ∧ t = applyReset { s with port := rest }) ∨
      ∃ w din rest, s.port = .command w din :: rest ∧ runWord w { s with port := rest, din := din } = .next t := by
  cases hp : s.port with
  | nil =>
    rw [step_nil hp] at h
    injection h with h
    exact .inl ⟨rfl, h.symm⟩
  | cons e rest =>
    cases e with
    | reset =>
      rw [step_reset hp] at h
      injection h with h
      exact .inr (.inl ⟨rest, rfl, h.symm⟩)
    | command w din =>
      rw [step_command hp] at h
      exact .inr (.inr ⟨w, din, rest, rfl, h⟩)

/-! ## The streaming rule on the unread bytes (R134, R135) -/

/-- The state after the removals that `o` says (R134, R135). -/
def StreamOutcome.apply (o : StreamOutcome) (s : State) : State :=
  { discard s o.removed with skip := s.skip + BitVec.ofNat 32 o.noise }

/-- The record of `P_STREAM` with the outcome `o` (R135). -/
def StreamOutcome.record (o : StreamOutcome) : Result where
  status := o.status
  value := BitVec.ofNat 32 o.removed
  frame := o.frame

theorem discard_afterNoise {s : State} (h : s.RegsLegal) (k n : Nat) :
    discard (afterNoise s k) n = { discard s (k + n) with skip := s.skip + BitVec.ofNat 32 k } := by
  rw [← discard_discard h]
  rfl

@[simp] theorem afterNoise_cap (s : State) (k : Nat) : (afterNoise s k).cap = s.cap := rfl

/-- `P_STREAM`'s rule does what `seqStream` says, and removes no more than is there. -/
theorem pStream_spec {s : State} {l : List Byte} (h : s.RegsLegal) (hl : s.Unread l) :
    pStream s = .ok ((seqStream s.cap.toNat l).apply s, (seqStream s.cap.toNat l).record) ∧
      (seqStream s.cap.toNat l).removed ≤ l.length := by
  obtain ⟨hk, hsync⟩ := seqScan_spec s.cap.toNat l
  rw [pStream, scan_spec h hl, seqStream]
  cases hf : (seqScan s.cap.toNat l).1 with
  | false => exact ⟨rfl, hk⟩
  | true =>
    obtain ⟨rest, hrest⟩ := hsync hf
    generalize (seqScan s.cap.toNat l).2 = k at *
    have htwo : 2 ≤ (l.drop k).length := by simp [hrest]
    obtain ⟨hhead, hlow, hhigh, hnoise⟩ := streamHead_spec k (h.afterNoise k) (hl.afterNoise h k) htwo
    rw [afterNoise_cap] at hhead hlow hhigh hnoise
    rw [List.length_drop] at hhigh
    simp only [if_true, hhead, discard_afterNoise h, Nat.add_sub_cancel' hlow, StreamOutcome.apply, hnoise]
    exact ⟨rfl, by omega⟩

/-! ## The invariant (R31) -/

theorem State.Inv.paramsLegal {s : State} (h : s.Inv) : s.params.Legal := h.1

theorem State.Inv.regs {s : State} (h : s.Inv) : s.RegsLegal := h.2.1

/-- An empty buffer with a legal capacity, `RD = 0` and a legal storage satisfies the invariant. -/
theorem State.inv_of_empty {s : State} (hp : s.params.Legal)
    (hcap : 1 ≤ s.cap.toNat ∧ s.cap.toNat ≤ s.params.rbMemSize)
    (hrd : s.rd = 0) (hcount : s.count = 0) (hstore : s.StoreLegal) : s.Inv := by
  have hcount0 : s.count.toNat = 0 := by rw [hcount]; rfl
  have hrd0 : s.rd.toNat = 0 := by rw [hrd]; rfl
  exact ⟨hp, ⟨hcap.1, hcap.2, by omega, by omega⟩, hstore, fun i hi => by omega⟩

/-- A storage without a value anywhere is legal. -/
theorem State.storeLegal_of_nil {s : State} (h : s.store = []) : s.StoreLegal := by
  simp [State.StoreLegal, h]

/-- The capacity after reset, `RB_MEM_SIZE`, fits its register and is legal (R1, R190). -/
theorem resetCap_legal {p : Params} (h : p.Legal) :
    1 ≤ (BitVec.ofNat 32 p.rbMemSize).toNat ∧ (BitVec.ofNat 32 p.rbMemSize).toNat ≤ p.rbMemSize := by
  rw [toNat_ofNat_word (by omega)]
  exact ⟨h.1, le_rfl⟩

/-- Reset leaves a state that satisfies the invariant, whatever was before (R190). -/
theorem applyReset_inv {s : State} (h : s.params.Legal) : (applyReset s).Inv :=
  State.inv_of_empty h (resetCap_legal h) rfl rfl (State.storeLegal_of_nil rfl)

/-- So does a block that has just been reset, for every legal pair of parameters (R190). -/
theorem resetWith_inv {p : Params} (h : p.Legal) : (State.resetWith p).Inv :=
  State.inv_of_empty h (resetCap_legal h) rfl rfl (State.storeLegal_of_nil rfl)

/-- The block's own parameters are legal (R1). -/
theorem configParams_legal : Config.params.Legal := by
  have := Config.rbMemSizeLessOne.isLt
  simp only [Params.Legal, Config.params]
  omega

/-- A capacity that `RB_INIT` accepts is a legal one (R111). -/
theorem badCapacity_eq_false_iff {n : Word} {s : State} :
    badCapacity n s = false ↔ 1 ≤ n.toNat ∧ n.toNat ≤ s.params.rbMemSize := by
  have hzero : n = 0 ↔ n.toNat = 0 := word_eq_iff (n := 0) (by norm_num)
  simp only [badCapacity, Bool.or_eq_false_iff, beq_eq_false_iff_ne, ne_eq, decide_eq_false_iff_not, hzero]
  omega

/-- Initializing the ring buffer with a legal capacity keeps the invariant (R111). -/
theorem State.Inv.initRing {s : State} (h : s.Inv) {n : Word} (hn : badCapacity n s = false) :
    (Machine.initRing n s).Inv := by
  obtain ⟨hp, -, hstore, -⟩ := h
  exact State.inv_of_empty hp (badCapacity_eq_false_iff.mp hn) rfl rfl hstore

/-- An occupied region that reads as a sequence was written. -/
theorem State.Unread.occupiedWritten {s : State} {l : List Byte} (h : s.Unread l) : s.OccupiedWritten := by
  obtain ⟨hlen, hbyte⟩ := h
  intro i hi
  rw [hbyte i hi, List.getElem?_eq_getElem (hlen ▸ hi)]
  rfl

/-- `RB_WRITE`'s rule keeps the invariant (R112). -/
theorem rbWrite_inv {s u : State} {r : Result} (hs : s.Inv) (h : rbWrite s = .ok (u, r)) : u.Inv := by
  have ⟨hp, hregs, hstore, _⟩ := hs
  obtain ⟨l, hl⟩ := hs.exists_unread
  obtain ⟨t, hrule, hw⟩ := rbWrite_spec hregs
  have hunread := hw.unread hl hregs
  rw [hrule] at h
  cases h
  have hcount : (BitVec.ofNat 32 (s.count.toNat + writeLength s)).toNat ≤ s.cap.toNat := by
    rw [BitVec.toNat_ofNat]
    exact (Nat.mod_le _ _).trans (count_add_writeLength_le hregs)
  have hstore' := hw.legal hstore
  rw [hw.frame] at hstore'
  exact ⟨hp, ⟨hregs.1, hregs.2.1, hregs.2.2.1, hcount⟩, hstore', hunread.occupiedWritten⟩

/-- `P_STREAM`'s rule keeps the invariant: it only discards and counts (R135). -/
theorem pStream_inv {s u : State} {r : Result} (hs : s.Inv) (h : pStream s = .ok (u, r)) : u.Inv := by
  obtain ⟨l, hl⟩ := hs.exists_unread
  rw [(pStream_spec hs.regs hl).1] at h
  cases h
  exact hs.discard _

/-- The rule of a command that changes no state (R43) ends in the state it began in. -/
theorem ruleOf_eq_self {i : Instr} {s u : State} {r : Result} (hi : changesNoState i = true)
    (h : ruleOf i s = .ok (u, r)) : u = s := by
  cases i with
  | rbPeek n => exact (readOut_eq_ok h).1
  | rbInit n => cases hi
  | rbWrite => cases hi
  | rbRead n => cases hi
  | pStream => cases hi
  | _ => cases h; rfl

/-- Every command's rule keeps the invariant. -/
theorem ruleOf_inv {i : Instr} {s u : State} {r : Result} (hs : s.Inv) (h : ruleOf i s = .ok (u, r)) : u.Inv := by
  cases i with
  | rbInit n =>
    obtain ⟨-, rfl, -⟩ | ⟨hn, rfl, -⟩ := rbInit_cases h
    · exact hs
    · exact hs.initRing hn
  | rbWrite => exact rbWrite_inv hs h
  | rbRead n =>
    obtain ⟨rfl, -⟩ := readOut_eq_ok h
    exact hs.discard _
  | pStream => exact pStream_inv hs h
  | _ => exact ruleOf_eq_self rfl h ▸ hs

/-- Every presented word keeps the invariant, a command or not. -/
theorem runWord_inv {w : CmdWord} {s t : State} (hs : s.Inv) (h : runWord w s = .next t) : t.Inv := by
  obtain rfl | ⟨i, u, r, hrule, rfl⟩ := runWord_eq_next_cases h
  · exact hs.deliver _
  · exact (ruleOf_inv hs hrule).deliver r

/-- Settles O14, by the next event at the port: none, a reset, or a presented word. -/
theorem stepKeepsInvariant : Obligations.StepKeepsInvariant := by
  intro s t hs h
  obtain ⟨-, rfl⟩ | ⟨rest, -, rfl⟩ | ⟨w, din, rest, -, hrun⟩ := step_eq_next_cases h
  · exact hs
  · exact applyReset_inv hs.paramsLegal
  · exact runWord_inv (s := { s with port := rest, din := din }) hs hrun

/-- Settles O13: reset leaves the buffer empty at full capacity, and the block's own parameters are legal. -/
theorem resetInvariant : Obligations.ResetInvariant :=
  ⟨fun _ hp => resetWith_inv hp, resetWith_inv configParams_legal⟩

end Sys2Proof.Machine

namespace Sys2Proof.Machine

/-! ## RD and stale bytes are unobservable (R34) -/

theorem State.SameView.params_eq {s t : State} (h : s.SameView t) : s.params = t.params := h.1

theorem State.SameView.cap_eq {s t : State} (h : s.SameView t) : s.cap = t.cap := h.2.1

theorem State.SameView.count_eq {s t : State} (h : s.SameView t) : s.count = t.count := h.2.2.1

/-- States that look alike hold the same unread bytes. -/
theorem State.SameView.unread {s t : State} {l : List Byte} (h : s.SameView t) (hl : s.Unread l) : t.Unread l := by
  obtain ⟨-, -, hcount, -, -, -, -, hbyte⟩ := h
  rw [State.Unread, ← hcount]
  exact ⟨hl.1, fun i hi => by rw [← hbyte i hi, hl.2 i hi]⟩

/-- States that hold the same unread bytes read the same at every occupied offset. -/
theorem State.Unread.unreadByte_eq {s t : State} {l : List Byte} (hs : s.Unread l) (ht : t.Unread l) :
    ∀ i < s.count.toNat, s.unreadByte i = t.unreadByte i := by
  intro i hi
  rw [hs.2 i hi, ht.2 i (by have := hs.1; have := ht.1; omega)]

/-- Delivering the same record keeps two states alike. -/
theorem State.SameView.deliver {s t : State} (h : s.SameView t) (r : Result) :
    (s.deliver r).SameView (t.deliver r) := by
  obtain ⟨hparams, hcap, hcount, hskip, hport, hdin, hresults, hbyte⟩ := h
  exact ⟨hparams, hcap, hcount, hskip, hport, hdin, congrArg (· ++ [r]) hresults, hbyte⟩

/-- Accepting the same event keeps two states alike. -/
theorem State.SameView.accepted {s t : State} (h : s.SameView t) (rest : List PortEvent) {d d' : List Byte}
    (hd : d = d') : State.SameView { s with port := rest, din := d } { t with port := rest, din := d' } := by
  obtain ⟨hparams, hcap, hcount, hskip, -, -, hresults, hbyte⟩ := h
  exact ⟨hparams, hcap, hcount, hskip, rfl, hd, hresults, hbyte⟩

/-- A discard of the same length keeps two states alike. -/
theorem State.SameView.discard {s t : State} (hs : s.Inv) (ht : t.Inv) (h : s.SameView t) (n : Nat) :
    (Machine.discard s n).SameView (Machine.discard t n) := by
  obtain ⟨l, hl⟩ := hs.exists_unread
  have hbyte := (hl.discard hs.regs n).unreadByte_eq ((h.unread hl).discard ht.regs n)
  obtain ⟨hparams, hcap, hcount, hskip, hport, hdin, hresults, -⟩ := h
  exact ⟨hparams, hcap, by simp [hcount], hskip, hport, hdin, hresults, hbyte⟩

/-- A reset leaves two such states alike: nothing is unread. -/
theorem State.SameView.applyReset {s t : State} (h : s.SameView t) :
    (Machine.applyReset s).SameView (Machine.applyReset t) := by
  obtain ⟨hparams, -, -, -, hport, hdin, hresults, -⟩ := h
  exact ⟨hparams, by simp [hparams], rfl, rfl, hport, hdin, hresults, fun i hi => by simp at hi⟩

/-- `RB_INIT` leaves two such states alike: nothing is unread. -/
theorem State.SameView.initRing {s t : State} (h : s.SameView t) (n : Word) :
    (Machine.initRing n s).SameView (Machine.initRing n t) := by
  obtain ⟨hparams, -, -, -, hport, hdin, hresults, -⟩ := h
  exact ⟨hparams, rfl, rfl, rfl, hport, hdin, hresults, fun i hi => by simp at hi⟩

/-- What the rule of a command does on `s`, it does on `t`: the same record, and states that look alike. -/
def MatchedRule (i : Instr) (s t : State) : Prop :=
  ∀ u r, ruleOf i s = .ok (u, r) → ∃ v, ruleOf i t = .ok (v, r) ∧ u.SameView v

theorem rbInit_matched {s t : State} (hv : s.SameView t) (n : Word) : MatchedRule (.rbInit n) s t := by
  intro u r h
  have hbad : badCapacity n t = badCapacity n s := by simp only [badCapacity, hv.params_eq]
  obtain ⟨hn, rfl, rfl⟩ | ⟨hn, rfl, rfl⟩ := rbInit_cases h
  · exact ⟨t, by simp [ruleOf, hbad, hn], hv⟩
  · exact ⟨initRing n t, by simp [ruleOf, hbad, hn], hv.initRing n⟩

theorem writeLength_eq {s t : State} (hv : s.SameView t) : writeLength s = writeLength t := by
  obtain ⟨-, hcap, hcount, -, -, hdin, -, -⟩ := hv
  simp only [writeLength, freeSpace, hcap, hcount, hdin]

theorem rbWrite_matched {s t : State} (hs : s.Inv) (ht : t.Inv) (hv : s.SameView t) : MatchedRule .rbWrite s t := by
  intro u r h
  obtain ⟨l, hl⟩ := hs.exists_unread
  obtain ⟨s', hrule, hw⟩ := rbWrite_spec hs.regs
  obtain ⟨t', hrule', hw'⟩ := rbWrite_spec ht.regs
  have hread := hw.unread hl hs.regs
  have hread' := hw'.unread (hv.unread hl) ht.regs
  have hlen := writeLength_eq hv
  obtain ⟨hparams, hcap, hcount, hskip, hport, hdin, hresults, -⟩ := hv
  rw [ruleOf, hrule] at h
  cases h
  rw [← hdin, ← hlen] at hread'
  rw [← hlen] at hrule'
  exact ⟨_, hrule', hparams, hcap, by simp [hcount], hskip, hport, hdin, hresults, hread.unreadByte_eq hread'⟩

theorem readLength_eq {s t : State} (hv : s.SameView t) (n : Word) : readLength n s = readLength n t := by
  obtain ⟨-, -, hcount, -⟩ := hv
  simp only [readLength, hcount]

/-- The reading rule returns the same record; the state it leaves is its caller's. -/
theorem readOut_matched {s t : State} (hs : s.Inv) (ht : t.Inv) (hv : s.SameView t) {k : Nat}
    (hk : k ≤ s.count.toNat) :
    ∃ r, (∀ after, readOut k s after = .ok (after, r)) ∧ ∀ after, readOut k t after = .ok (after, r) := by
  obtain ⟨l, hl⟩ := hs.exists_unread
  have hk' : k ≤ t.count.toNat := hv.count_eq ▸ hk
  exact ⟨_, readOut_spec hs.regs hl hk, readOut_spec ht.regs (hv.unread hl) hk'⟩

theorem rbRead_matched {s t : State} (hs : s.Inv) (ht : t.Inv) (hv : s.SameView t) (n : Word) :
    MatchedRule (.rbRead n) s t := by
  intro u r h
  obtain ⟨r', hread, hread'⟩ := readOut_matched hs ht hv (k := readLength n s) (Nat.min_le_right _ _)
  rw [ruleOf, hread] at h
  cases h
  refine ⟨_, ?_, hv.discard hs ht (readLength n s)⟩
  rw [ruleOf, ← readLength_eq hv, hread']

theorem rbPeek_matched {s t : State} (hs : s.Inv) (ht : t.Inv) (hv : s.SameView t) (n : Word) :
    MatchedRule (.rbPeek n) s t := by
  intro u r h
  obtain ⟨r', hread, hread'⟩ := readOut_matched hs ht hv (k := readLength n s) (Nat.min_le_right _ _)
  rw [ruleOf, hread] at h
  cases h
  refine ⟨_, ?_, hv⟩
  rw [ruleOf, ← readLength_eq hv, hread']

/-- The same streaming outcome keeps two states alike. -/
theorem State.SameView.stream {s t : State} (hs : s.Inv) (ht : t.Inv) (hv : s.SameView t) (o : StreamOutcome) :
    (o.apply s).SameView (o.apply t) := by
  obtain ⟨hparams, hcap, hcount, hskip, hport, hdin, hresults, hbyte⟩ := hv.discard hs ht o.removed
  exact ⟨hparams, hcap, hcount, congrArg (· + BitVec.ofNat 32 o.noise) hskip, hport, hdin, hresults, hbyte⟩

theorem pStream_matched {s t : State} (hs : s.Inv) (ht : t.Inv) (hv : s.SameView t) : MatchedRule .pStream s t := by
  intro u r h
  obtain ⟨l, hl⟩ := hs.exists_unread
  obtain ⟨hrule, -⟩ := pStream_spec hs.regs hl
  obtain ⟨hrule', -⟩ := pStream_spec ht.regs (hv.unread hl)
  rw [← hv.cap_eq] at hrule'
  rw [ruleOf, hrule] at h
  cases h
  exact ⟨_, hrule', hv.stream hs ht _⟩

/-- Every command's rule is matched: the ring and stream rules act on the unread bytes, `RB_INIT` drops them, and the
others read no more than CAP, COUNT, SKIP and DIN. -/
theorem ruleOf_matched {s t : State} (hs : s.Inv) (ht : t.Inv) (hv : s.SameView t) (i : Instr) : MatchedRule i s t := by
  cases i with
  | rbInit n => exact rbInit_matched hv n
  | rbWrite => exact rbWrite_matched hs ht hv
  | rbRead n => exact rbRead_matched hs ht hv n
  | rbPeek n => exact rbPeek_matched hs ht hv n
  | pStream => exact pStream_matched hs ht hv
  | _ =>
    intro u r h
    have ⟨_, hcap, hcount, hskip, _, hdin, _, _⟩ := hv
    cases h
    exact ⟨t, by simp only [ruleOf, freeSpace, hcap, hcount, hskip, hdin], hv⟩

/-- A command runs alike on two states that look alike: admission reads the parameters and DIN only. -/
theorem exec_matched {i : Instr} {s t s' : State} (hs : s.Inv) (ht : t.Inv) (hv : s.SameView t)
    (h : exec i s = .next s') : ∃ t', exec i t = .next t' ∧ s'.SameView t' := by
  have ⟨hparams, _, _, _, _, hdin, _, _⟩ := hv
  obtain ⟨hwf, rfl⟩ | ⟨hwf, u, r, hrule, rfl⟩ := exec_eq_next_cases h
  · rw [hparams, hdin] at hwf
    exact ⟨_, exec_rejected hwf, hv.deliver _⟩
  · rw [hparams, hdin] at hwf
    obtain ⟨v, hrule', huv⟩ := ruleOf_matched hs ht hv i u r hrule
    exact ⟨v.deliver r, exec_of_ruleOf hwf hrule', huv.deliver r⟩

theorem runWord_matched {w : CmdWord} {s t s' : State} (hs : s.Inv) (ht : t.Inv) (hv : s.SameView t)
    (h : runWord w s = .next s') : ∃ t', runWord w t = .next t' ∧ s'.SameView t' := by
  cases hw : decode w with
  | ok i =>
    rw [runWord_ok hw] at h ⊢
    exact exec_matched hs ht hv h
  | error e =>
    rw [runWord_error hw] at h ⊢
    cases h
    exact ⟨_, rfl, hv.deliver _⟩

/-- Settles O26, by the next event at the port, which is the same in both states. -/
theorem cursorAndStaleBytesUnobservable : Obligations.CursorAndStaleBytesUnobservable := by
  intro s t s' hs ht hv h
  have ⟨_, _, _, _, hport, hdin, _, _⟩ := hv
  obtain ⟨hp, rfl⟩ | ⟨rest, hp, rfl⟩ | ⟨w, din, rest, hp, hrun⟩ := step_eq_next_cases h
  · exact ⟨t, step_nil (hport ▸ hp), hv⟩
  · exact ⟨_, step_reset (hport ▸ hp), (hv.accepted rest hdin).applyReset⟩
  · rw [step_command (hport ▸ hp)]
    exact runWord_matched (s := { s with port := rest, din := din }) (t := { t with port := rest, din := din }) hs ht
      (hv.accepted rest rfl) hrun

end Sys2Proof.Machine

namespace Sys2Proof.Machine

/-! ## One record per command, whatever the records before it (R27) -/

/-- The state with another list of records delivered before. -/
def State.withResults (s : State) (earlier : List Result) : State := { s with results := earlier }

/-- An answer of a rule that ran after other records: the same, with those records left in place. -/
def answerAfter (earlier : List Result) (p : State × Result) : State × Result := (p.1.withResults earlier, p.2)

@[simp] theorem State.withResults_count (s : State) (e : List Result) : (s.withResults e).count = s.count := rfl
@[simp] theorem State.withResults_din (s : State) (e : List Result) : (s.withResults e).din = s.din := rfl

@[simp] theorem ringByte_withResults (s : State) (e : List Result) (i : Nat) :
    ringByte (s.withResults e) i = ringByte s i := rfl

@[simp] theorem dropNoise_withResults (s : State) (e : List Result) :
    dropNoise (s.withResults e) = (dropNoise s).withResults e := rfl

theorem memWrite_withResults (s : State) (e : List Result) (a : Nat) (b : Byte) :
    memWrite (s.withResults e) a b = (memWrite s a b).map (·.withResults e) := by
  unfold memWrite
  cases h : storeIndexOk s a with
  | false => rw [show storeIndexOk (s.withResults e) a = false from h]; rfl
  | true => rw [show storeIndexOk (s.withResults e) a = true from h]; rfl

@[simp] theorem ringBytes_withResults (s : State) (e : List Result) (i n : Nat) :
    ringBytes (s.withResults e) i n = ringBytes s i n := by
  induction n generalizing i with
  | zero => rfl
  | succ n ih => simp only [ringBytes, ringByte_withResults, ih]

theorem ringWrite_withResults (s : State) (e : List Result) (j : Nat) (bs : List Byte) :
    ringWrite (s.withResults e) j bs = (ringWrite s j bs).map (·.withResults e) := by
  induction bs generalizing s j with
  | nil => rfl
  | cons b bs ih =>
    have hidx : ringIndex (s.withResults e) j = ringIndex s j := rfl
    rw [ringWrite, ringWrite, hidx, memWrite_withResults]
    cases memWrite s (ringIndex s j) b with
    | error f => rfl
    | ok t => exact ih t (j + 1)

theorem scanLoop_withResults (e : List Result) (fuel : Nat) (s : State) (k : Nat) :
    scanLoop fuel (s.withResults e) k = (scanLoop fuel s k).map fun p => (p.1, p.2.1, p.2.2.withResults e) := by
  induction fuel generalizing s k with
  | zero => rfl
  | succ fuel ih =>
    simp only [scanLoop, ringByte_withResults, dropNoise_withResults, ih]
    cases ringByte s 0 with
    | error f => simp only [apply_ite (Except.map _)]; rfl
    | ok b0 =>
      cases ringByte s 1 with
      | error f => simp only [apply_ite (Except.map _)]; rfl
      | ok b1 => simp only [apply_ite (Except.map _)]; rfl

theorem streamBody_withResults (k l : Nat) (s : State) (e : List Result) :
    streamBody k l (s.withResults e) = (streamBody k l s).map (answerAfter e) := by
  simp only [streamBody, ringBytes_withResults, apply_ite (Except.map _)]
  cases ringBytes s 0 l with
  | error f => rfl
  | ok fb =>
    dsimp only
    cases frameCheck fb with
    | error st => rfl
    | ok f => rfl

theorem streamHead_withResults (k : Nat) (s : State) (e : List Result) :
    streamHead k (s.withResults e) = (streamHead k s).map (answerAfter e) := by
  simp only [streamHead, ringByte_withResults, streamBody_withResults, apply_ite (Except.map _)]
  cases ringByte s 3 with
  | error f => rfl
  | ok hi =>
    cases ringByte s 4 with
    | error f => rfl
    | ok lo => rfl

theorem pStream_withResults (s : State) (e : List Result) :
    pStream (s.withResults e) = (pStream s).map (answerAfter e) := by
  rw [pStream, pStream, scan, scan, State.withResults_count, scanLoop_withResults]
  cases scanLoop s.count.toNat s 0 with
  | error f => rfl
  | ok p =>
    obtain ⟨found, k, t⟩ := p
    cases found with
    | false => rfl
    | true => exact streamHead_withResults k t e

theorem rbWrite_withResults (s : State) (e : List Result) :
    rbWrite (s.withResults e) = (rbWrite s).map (answerAfter e) := by
  have hlen : writeLength (s.withResults e) = writeLength s := rfl
  rw [rbWrite, rbWrite, State.withResults_count, State.withResults_din, hlen, ringWrite_withResults]
  cases ringWrite s s.count.toNat (s.din.take (writeLength s)) with
  | error f => rfl
  | ok t => rfl

theorem readOut_withResults (k : Nat) (s after : State) (e : List Result) :
    readOut k (s.withResults e) (after.withResults e) = (readOut k s after).map (answerAfter e) := by
  rw [readOut, readOut, ringBytes_withResults]
  cases ringBytes s 0 k with
  | error f => rfl
  | ok out => rfl

/-- No rule reads the records delivered before it, and none touches them. -/
theorem ruleOf_withResults (i : Instr) (s : State) (e : List Result) :
    ruleOf i (s.withResults e) = (ruleOf i s).map (answerAfter e) := by
  cases i with
  | rbInit n =>
    have hbad : badCapacity n (s.withResults e) = badCapacity n s := rfl
    rw [ruleOf, ruleOf, hbad]
    cases badCapacity n s with
    | false => rfl
    | true => rfl
  | rbWrite => exact rbWrite_withResults s e
  | rbRead n => exact readOut_withResults (readLength n s) s (discard s (readLength n s)) e
  | rbPeek n => exact readOut_withResults (readLength n s) s s e
  | pStream => exact pStream_withResults s e
  | _ => rfl

/-- The record of one presented word: it is the only one added, and it does not depend on the earlier ones. -/
def OneRecord (run : State → Host.Outcome State Fault Refusal) (s t : State) : Prop :=
  ∃ r, t.results = s.results ++ [r] ∧ ∀ e, run (s.withResults e) = .next (t.withResults (e ++ [r]))

theorem exec_oneRecord {i : Instr} {s t : State} (h : exec i s = .next t) : OneRecord (exec i) s t := by
  obtain ⟨hwf, rfl⟩ | ⟨hwf, u, r, hrule, rfl⟩ := exec_eq_next_cases h
  · exact ⟨_, rfl, fun e => exec_rejected (s := s.withResults e) hwf⟩
  · obtain ⟨hresults, -⟩ := ruleOf_ports hrule
    refine ⟨r, congrArg (· ++ [r]) hresults, fun e => ?_⟩
    exact exec_of_ruleOf (s := s.withResults e) hwf (by rw [ruleOf_withResults, hrule]; rfl)

theorem runWord_oneRecord {w : CmdWord} {s t : State} (h : runWord w s = .next t) : OneRecord (runWord w) s t := by
  cases hw : decode w with
  | ok i =>
    rw [runWord_ok hw] at h
    obtain ⟨r, hr, hsame⟩ := exec_oneRecord h
    exact ⟨r, hr, fun e => by rw [runWord_ok hw, hsame]⟩
  | error err =>
    rw [runWord_error hw] at h
    cases h
    exact ⟨_, rfl, fun e => runWord_error hw _⟩

/-- Settles O17: the presented word delivers one record, the same after any earlier ones. -/
theorem oneResultPerCommand : Obligations.OneResultPerCommand := by
  intro s t w din rest hp h
  rw [step_command hp] at h
  obtain ⟨r, hr, hsame⟩ := runWord_oneRecord h
  refine ⟨r, hr, fun e => ?_⟩
  rw [step_command (s := { s with results := e }) hp]
  exact hsame e

/-! ## What a result record names (R28, R66) -/

/-- What one command delivers, if it ends: the rejection record, or its rule's. -/
theorem exec_record_cases {i : Instr} {s t : State} {r : Result} (h : exec i s = .next t)
    (hr : t.results = s.results ++ [r]) :
    (¬WellFormed s.params i s.din ∧ r = Result.error .invalidArg ∧ t = s.deliver r) ∨
      (WellFormed s.params i s.din ∧ ∃ u, ruleOf i s = .ok (u, r) ∧ t = u.deliver r) := by
  obtain ⟨hwf, rfl⟩ | ⟨hwf, u, r', hrule, rfl⟩ := exec_eq_next_cases h
  · have hrr : Result.error .invalidArg = r := by simpa using hr
    exact .inl ⟨hwf, hrr.symm, hrr ▸ rfl⟩
  · obtain ⟨hresults, -⟩ := ruleOf_ports hrule
    have hrr : r' = r := by simpa [hresults] using hr
    exact .inr ⟨hwf, u, hrr ▸ hrule, hrr ▸ rfl⟩

/-- The fields of a record that the rule of the command `i` does not name take their defaults (R28, R66). -/
def UnnamedDefault (i : Instr) (r : Result) : Prop :=
  (r.status ≠ .ok → r.dout = [] ∧ r.frame = none ∧ (i ≠ .pStream → r.value = 0)) ∧
  ((¬∃ n, i = .rbRead n ∨ i = .rbPeek n) → i ≠ .pExtract →
    (¬∃ ty sq fl n, i = .bBuild ty sq fl n ∨ i = .bSerialize ty sq fl n) → r.dout = []) ∧
  (i ≠ .pParse → i ≠ .pStream → r.frame = none) ∧
  ((i = .pParse ∨ ∃ n, i = .rbInit n) → r.value = 0)

theorem error_unnamedDefault (i : Instr) (st : Status) : UnnamedDefault i (Result.error st) := by
  simp [UnnamedDefault, Result.error]

theorem writeResult_unnamedDefault {i : Instr}
    (hi : ∃ ty sq fl n, i = .bBuild ty sq fl n ∨ i = .bSerialize ty sq fl n)
    (w : Except Status (List Byte)) : UnnamedDefault i (writeResult w) := by
  cases w with
  | error st => exact error_unnamedDefault i st
  | ok out =>
    obtain ⟨ty, sq, fl, n, rfl | rfl⟩ := hi
    · simp [UnnamedDefault, writeResult]
    · simp [UnnamedDefault, writeResult]

/-- A flat parse reports a failing gate with the defaults, so only the record of an accepted frame is left to check. -/
theorem flatResult_unnamedDefault {i : Instr} {g : Frame → Result} (hg : ∀ f, UnnamedDefault i (g f))
    (b : List Byte) :
    UnnamedDefault i (flatResult b g) := by
  obtain ⟨st, -, h⟩ | ⟨f, -, h⟩ := flatResult_cases b g
  · exact h ▸ error_unnamedDefault i st
  · exact h ▸ hg f

theorem ruleOf_unnamedDefault {i : Instr} {s u : State} {r : Result} (h : ruleOf i s = .ok (u, r)) :
    UnnamedDefault i r := by
  cases i with
  | rbInit n =>
    obtain ⟨-, -, rfl⟩ | ⟨-, -, rfl⟩ := rbInit_cases h
    · exact error_unnamedDefault _ _
    · simp [UnnamedDefault]
  | rbWrite =>
    obtain ⟨-, rfl, -⟩ := rbWrite_frame h
    simp [UnnamedDefault]
  | rbRead n =>
    obtain ⟨-, out, -, rfl⟩ := readOut_eq_ok h
    simp [UnnamedDefault]
  | rbPeek n =>
    obtain ⟨-, out, -, rfl⟩ := readOut_eq_ok h
    simp [UnnamedDefault]
  | pStream =>
    have ha := pStream_answer h
    exact ⟨fun hst => ⟨ha.dout, ha.frameNone hst, fun hne => absurd rfl hne⟩, fun _ _ _ => ha.dout,
      fun _ hne => absurd rfl hne, by simp⟩
  | pParse => cases h; exact flatResult_unnamedDefault (by simp [UnnamedDefault]) _
  | pValidate => cases h; exact flatResult_unnamedDefault (by simp [UnnamedDefault]) _
  | pExtract => cases h; exact flatResult_unnamedDefault (by simp [UnnamedDefault]) _
  | bBuild ty sq fl n => cases h; exact writeResult_unnamedDefault ⟨ty, sq, fl, n, .inl rfl⟩ _
  | bSerialize ty sq fl n => cases h; exact writeResult_unnamedDefault ⟨ty, sq, fl, n, .inr rfl⟩ _
  | _ => cases h; simp [UnnamedDefault]

/-- Settles O18: a rejection names only its status, and each rule names the fields its own clause allows. -/
theorem unnamedResultFieldsDefault : Obligations.UnnamedResultFieldsDefault := by
  intro i s t r h hr
  obtain ⟨-, rfl, -⟩ | ⟨-, u, hrule, -⟩ := exec_record_cases h hr
  · exact error_unnamedDefault i _
  · exact ruleOf_unnamedDefault hrule

/-! ## Who writes what (R22 to R26) -/

/-- Which commands may make which register, or STORE, differ between `s` and `u`. -/
def WritersOnly (i : Instr) (s u : State) : Prop :=
  (u.cap ≠ s.cap → ∃ n, i = .rbInit n) ∧
  (u.rd ≠ s.rd → i = .pStream ∨ ∃ n, i = .rbInit n ∨ i = .rbRead n) ∧
  (u.count ≠ s.count → i = .rbWrite ∨ i = .pStream ∨ ∃ n, i = .rbInit n ∨ i = .rbRead n) ∧
  (u.skip ≠ s.skip → i = .pStream ∨ ∃ n, i = .rbInit n) ∧
  (u.store ≠ s.store → i = .rbWrite)

theorem writersOnly_self (i : Instr) (s : State) : WritersOnly i s s := by simp [WritersOnly]

theorem ruleOf_writersOnly {i : Instr} {s u : State} {r : Result} (h : ruleOf i s = .ok (u, r)) :
    WritersOnly i s u := by
  cases i with
  | rbInit n =>
    obtain ⟨-, rfl, -⟩ | ⟨-, rfl, -⟩ := rbInit_cases h
    · exact writersOnly_self _ _
    · simp [WritersOnly]
  | rbWrite =>
    obtain ⟨hu, -⟩ := rbWrite_frame h
    rw [hu]
    simp [WritersOnly]
  | rbRead n =>
    obtain ⟨rfl, -⟩ := readOut_eq_ok h
    simp [WritersOnly]
  | pStream =>
    have hu : u = { s with rd := u.rd, count := u.count, skip := u.skip } := (pStream_answer h).cursors
    rw [hu]
    simp [WritersOnly]
  | _ => exact ruleOf_eq_self rfl h ▸ writersOnly_self _ _

/-- Settles O21: a rejection changes no register, and each rule only those its own clause allows. -/
theorem stateWriters : Obligations.StateWriters := by
  intro i s t h
  obtain ⟨-, rfl⟩ | ⟨-, u, r, hrule, rfl⟩ := exec_eq_next_cases h
  · obtain ⟨hcap, hrd, hcount, hskip, hstore⟩ := writersOnly_self i s
    exact ⟨hcap, hrd, hcount, hskip, hstore, rfl, rfl, rfl⟩
  · obtain ⟨hcap, hrd, hcount, hskip, hstore⟩ := ruleOf_writersOnly hrule
    obtain ⟨-, hparams, hport, hdin⟩ := ruleOf_ports hrule
    exact ⟨hcap, hrd, hcount, hskip, hstore, hparams, hport, hdin⟩

/-! ## The ring commands on the unread bytes (R34) -/

/-- `RB_WRITE` appends the leading bytes of DIN that fit (R112). -/
theorem exec_rbWrite_unread {s : State} {l : List Byte} (hs : s.Inv) (hl : s.Unread l)
    (hdin : s.din.length ≤ s.params.maxInputLen) :
    ∃ t, exec .rbWrite s = .next t ∧ t.Unread (l ++ s.din.take (s.cap.toNat - s.count.toNat)) := by
  obtain ⟨t, hrule, hw⟩ := rbWrite_spec hs.regs
  have hread := hw.unread hl hs.regs
  have htake : s.din.take (writeLength s) = s.din.take (s.cap.toNat - s.count.toNat) := by
    rw [writeLength, freeSpace, Nat.min_comm, ← List.take_take, List.take_length]
  rw [htake] at hread
  exact ⟨_, exec_of_ruleOf (i := .rbWrite) ⟨nofun, hdin⟩ hrule, hread⟩

/-- An empty DIN passes the admission checks of every command (R64). -/
theorem wellFormed_of_din_nil {s : State} (h : s.din = []) (i : Instr) : WellFormed s.params i s.din :=
  ⟨fun _ => h, by simp [WellFormed.dinFits, h]⟩

/-- `RB_READ N` removes and returns the first `N` unread bytes (R113). -/
theorem exec_rbRead_unread {s : State} {l : List Byte} (hs : s.Inv) (hl : s.Unread l) (n : Word) (hdin : s.din = []) :
    ∃ t r, exec (.rbRead n) s = .next t ∧ t.results = s.results ++ [r] ∧ r.dout = l.take n.toNat ∧
      t.Unread (l.drop n.toNat) := by
  have hrule := readOut_spec hs.regs hl (k := readLength n s) (Nat.min_le_right _ _) (discard s (readLength n s))
  have hmin : readLength n s = min n.toNat l.length := by rw [readLength, hl.1]
  have hdrop : l.drop (readLength n s) = l.drop n.toNat := by simp [hmin]
  refine ⟨_, _, exec_of_ruleOf (wellFormed_of_din_nil hdin (.rbRead n)) hrule, rfl, ?_, ?_⟩
  · rw [hmin, ← List.take_take, List.take_length]
  · exact hdrop ▸ hl.discard hs.regs _

/-- `P_STREAM` removes from the front as many bytes as its value says (R135). -/
theorem exec_pStream_unread {s : State} {l : List Byte} (hs : s.Inv) (hl : s.Unread l) (hdin : s.din = []) :
    ∃ t r, exec .pStream s = .next t ∧ t.results = s.results ++ [r] ∧ r.value.toNat ≤ l.length ∧
      t.Unread (l.drop r.value.toNat) := by
  obtain ⟨hrule, hle⟩ := pStream_spec hs.regs hl
  have hvalue : (seqStream s.cap.toNat l).record.value.toNat = (seqStream s.cap.toNat l).removed :=
    toNat_ofNat_word (by have := hl.1; have := s.count.isLt; omega)
  refine ⟨_, _, exec_of_ruleOf (wellFormed_of_din_nil hdin .pStream) hrule, rfl, hvalue ▸ hle, ?_⟩
  rw [hvalue]
  exact hl.discard hs.regs _

/-- Settles O41, one command at a time. -/
theorem commandsActOnUnreadSequence : Obligations.CommandsActOnUnreadSequence := by
  intro s l hs hl
  exact ⟨exec_rbWrite_unread hs hl, exec_rbRead_unread hs hl, exec_pStream_unread hs hl⟩

/-! ## Returned frames (R29, R71, R72) -/

/-- VERSION is the FLAGS byte modulo 16 (R71). -/
theorem versionOf_eq_VERSION_iff (flags : Byte) : versionOf flags = VERSION ↔ flags.toNat % 16 = 1 := by
  rw [← BitVec.toNat_inj, versionOf, BitVec.extractLsb'_toNat, Nat.shiftRight_zero]
  rfl

/-- A frame that passes every gate is consistent with its LENGTH and carries VERSION 1 (R130). -/
theorem frameCheck_consistent {b : List Byte} {f : Frame} (h : frameCheck b = .ok f) :
    f.totalLength.toNat = 9 + f.payload.length ∧ f.payload.length ≤ 1024 ∧ f.flags.toNat % 16 = 1 := by
  obtain ⟨-, -, hmin, hmax, hfits, -, hversion, rfl⟩ := frameCheck_eq_ok h
  have hpayload : (extractFrame b (lengthField b)).payload.length = (lengthField b).toNat - 9 := by
    simp only [extractFrame, slice, List.length_drop, List.length_take, HEADER_SIZE, CRC_SIZE]
    omega
  have htotal : (extractFrame b (lengthField b)).totalLength = lengthField b := rfl
  rw [hpayload, htotal]
  exact ⟨by omega, by omega, (versionOf_eq_VERSION_iff _).mp hversion⟩

/-- Every frame a rule returns has passed the gates: only `P_PARSE` and `P_STREAM` return one. -/
theorem ruleOf_frame_checked {i : Instr} {s u : State} {r : Result} {f : Frame} (h : ruleOf i s = .ok (u, r))
    (hf : r.frame = some f) : ∃ b, frameCheck b = .ok f := by
  obtain ⟨-, -, hother, -⟩ := ruleOf_unnamedDefault h
  by_cases hstream : i = .pStream
  · subst hstream
    exact (pStream_answer h).frameChecked f hf
  by_cases hparse : i = .pParse
  · subst hparse
    cases h
    obtain ⟨st, -, hres⟩ | ⟨g, hg, hres⟩ := flatResult_cases s.din fun f => { status := .ok, frame := some f }
    · rw [hres] at hf
      cases hf
    · rw [hres] at hf
      cases hf
      exact ⟨s.din, hg⟩
  · rw [hother hparse hstream] at hf
    cases hf

/-- Settles O47: a rejection returns no frame, and every frame a rule returns has passed the gates. -/
theorem returnedFramesAreConsistent : Obligations.ReturnedFramesAreConsistent := by
  intro i s t r f h hr hf
  obtain ⟨-, rfl, -⟩ | ⟨-, u, hrule, -⟩ := exec_record_cases h hr
  · cases hf
  · obtain ⟨b, hb⟩ := ruleOf_frame_checked hrule hf
    exact frameCheck_consistent hb

/-! ## Presenting a command (R21, R45) -/

/-- The decoder reads back every command from its word (R60 to R63). -/
theorem decode_encode (i : Instr) : decode (encode i) = .ok i := by
  cases i <;> simp [encode, encodeF0, encodeFN, encodeFB, decodeFields_eq_ok, selectRow_eq_some, Instr.opcode,
    Instr.hasFields, Instr.format, Format.reservedZero]

/-- Settles O8: the presented word is the head of the port, and it decodes to the command. -/
theorem presentedWordRunsNext : Obligations.PresentedWordRunsNext := by
  intro s i
  have hword : BitVec.ofNat 64 ((encode i).toNat % 2 ^ 64) = encode i := by
    rw [Nat.mod_eq_of_lt (encode i).isLt, BitVec.ofNat_toNat, BitVec.setWidth_eq]
  rw [step_command (s := s.withFetchWord 64 (encode i).toNat) rfl, hword, runWord_ok (decode_encode i)]
  rfl

/-- Settles O9: a step with an empty port idles. -/
theorem idleStepChangesNothing : Obligations.IdleStepChangesNothing := fun _ h => step_nil h

end Sys2Proof.Machine

namespace Sys2Proof.Machine

/-! ## Every step completes (20_memory.md R47, R50; 60_exceptions.md R170) -/

/-- In a state that satisfies the invariant every rule answers: the rules that read or write STORE stay inside the
occupied or the free bytes, and the others do not touch it. -/
theorem ruleOf_completes {s : State} (hs : s.Inv) (i : Instr) : ∃ u r, ruleOf i s = .ok (u, r) := by
  obtain ⟨l, hl⟩ := hs.exists_unread
  cases i with
  | rbWrite =>
    obtain ⟨t, hrule, -⟩ := rbWrite_spec hs.regs
    exact ⟨_, _, hrule⟩
  | rbRead n => exact ⟨_, _, readOut_spec hs.regs hl (Nat.min_le_right _ _) _⟩
  | rbPeek n => exact ⟨_, _, readOut_spec hs.regs hl (Nat.min_le_right _ _) _⟩
  | pStream => exact ⟨_, _, (pStream_spec hs.regs hl).1⟩
  | _ => exact ⟨_, _, rfl⟩

/-- So every command ends, admitted or not (R64). -/
theorem exec_completes {s : State} (hs : s.Inv) (i : Instr) : ∃ t, exec i s = .next t := by
  by_cases hwf : WellFormed s.params i s.din
  · obtain ⟨u, r, hrule⟩ := ruleOf_completes hs i
    exact ⟨_, exec_of_ruleOf hwf hrule⟩
  · exact ⟨_, exec_rejected hwf⟩

/-- So every presented word is dealt with, a command or not (R68). -/
theorem runWord_completes {s : State} (hs : s.Inv) (w : CmdWord) : ∃ t, runWord w s = .next t := by
  cases hw : decode w with
  | ok i =>
    rw [runWord_ok hw]
    exact exec_completes hs i
  | error e => exact ⟨_, runWord_error hw s⟩

/-- Settles O15, by the next event at the port: none, a reset, or a presented word. -/
theorem stepAlwaysCompletes : Obligations.StepAlwaysCompletes := by
  intro s hs
  cases hp : s.port with
  | nil => exact ⟨_, step_nil hp⟩
  | cons e rest =>
    cases e with
    | reset => exact ⟨_, step_reset hp⟩
    | command w din =>
      rw [step_command hp]
      exact runWord_completes (s := { s with port := rest, din := din }) hs w

/-! ## The commands that change no state (R43) -/

/-- All that a command of R43 does, if it ends, is deliver a record. -/
theorem exec_eq_deliver {i : Instr} {s t : State} (hi : changesNoState i = true) (h : exec i s = .next t) :
    ∃ r, t = s.deliver r := by
  obtain ⟨-, rfl⟩ | ⟨-, u, r, hrule, rfl⟩ := exec_eq_next_cases h
  · exact ⟨_, rfl⟩
  · exact ⟨r, by rw [ruleOf_eq_self hi hrule]⟩

/-- Settles O22: the command only delivers its record, and no command reads the records delivered before it (R27), so
the same record comes again. -/
theorem readOnlyCommandsChangeNothing : Obligations.ReadOnlyCommandsChangeNothing := by
  intro i s t hi h
  obtain ⟨r, hr, hsame⟩ := exec_oneRecord h
  obtain ⟨r', rfl⟩ := exec_eq_deliver hi h
  have hrr : r' = r := by simpa using hr
  subst hrr
  exact ⟨⟨r', rfl, hsame (s.results ++ [r'])⟩, fun _ => rfl⟩

/-! ## What is pending at the port is not read (R45, R52) -/

/-- The state with other events pending at the command port. -/
def State.withPort (s : State) (p : List PortEvent) : State := { s with port := p }

/-- An answer of a rule that ran with other events pending: the same, with those events left pending. -/
def answerWithPort (p : List PortEvent) (a : State × Result) : State × Result := (a.1.withPort p, a.2)

@[simp] theorem State.withPort_count (s : State) (p : List PortEvent) : (s.withPort p).count = s.count := rfl
@[simp] theorem State.withPort_din (s : State) (p : List PortEvent) : (s.withPort p).din = s.din := rfl

@[simp] theorem ringByte_withPort (s : State) (p : List PortEvent) (i : Nat) :
    ringByte (s.withPort p) i = ringByte s i := rfl

@[simp] theorem dropNoise_withPort (s : State) (p : List PortEvent) :
    dropNoise (s.withPort p) = (dropNoise s).withPort p := rfl

@[simp] theorem ringBytes_withPort (s : State) (p : List PortEvent) (i n : Nat) :
    ringBytes (s.withPort p) i n = ringBytes s i n := by
  induction n generalizing i with
  | zero => rfl
  | succ n ih => simp only [ringBytes, ringByte_withPort, ih]

theorem memWrite_withPort (s : State) (p : List PortEvent) (a : Nat) (b : Byte) :
    memWrite (s.withPort p) a b = (memWrite s a b).map (·.withPort p) := by
  simp only [memWrite, apply_ite (Except.map _)]
  rfl

theorem ringWrite_withPort (s : State) (p : List PortEvent) (j : Nat) (bs : List Byte) :
    ringWrite (s.withPort p) j bs = (ringWrite s j bs).map (·.withPort p) := by
  induction bs generalizing s j with
  | nil => rfl
  | cons b bs ih =>
    have hidx : ringIndex (s.withPort p) j = ringIndex s j := rfl
    rw [ringWrite, ringWrite, hidx, memWrite_withPort]
    cases memWrite s (ringIndex s j) b with
    | error f => rfl
    | ok t => exact ih t (j + 1)

theorem scanLoop_withPort (p : List PortEvent) (fuel : Nat) (s : State) (k : Nat) :
    scanLoop fuel (s.withPort p) k = (scanLoop fuel s k).map fun a => (a.1, a.2.1, a.2.2.withPort p) := by
  induction fuel generalizing s k with
  | zero => rfl
  | succ fuel ih =>
    simp only [scanLoop, ringByte_withPort, dropNoise_withPort, ih, apply_ite (Except.map _)]
    cases ringByte s 0 with
    | error f => rfl
    | ok b0 =>
      cases ringByte s 1 with
      | error f => simp only [apply_ite (Except.map _)]; rfl
      | ok b1 => simp only [apply_ite (Except.map _)]; rfl

theorem streamBody_withPort (k l : Nat) (s : State) (p : List PortEvent) :
    streamBody k l (s.withPort p) = (streamBody k l s).map (answerWithPort p) := by
  simp only [streamBody, ringBytes_withPort, apply_ite (Except.map _)]
  cases ringBytes s 0 l with
  | error f => rfl
  | ok fb =>
    dsimp only
    cases frameCheck fb with
    | error st => rfl
    | ok f => rfl

theorem streamHead_withPort (k : Nat) (s : State) (p : List PortEvent) :
    streamHead k (s.withPort p) = (streamHead k s).map (answerWithPort p) := by
  simp only [streamHead, ringByte_withPort, streamBody_withPort, apply_ite (Except.map _)]
  cases ringByte s 3 with
  | error f => rfl
  | ok hi =>
    cases ringByte s 4 with
    | error f => rfl
    | ok lo => rfl

theorem pStream_withPort (s : State) (p : List PortEvent) :
    pStream (s.withPort p) = (pStream s).map (answerWithPort p) := by
  rw [pStream, pStream, scan, scan, State.withPort_count, scanLoop_withPort]
  cases scanLoop s.count.toNat s 0 with
  | error f => rfl
  | ok a =>
    obtain ⟨found, k, t⟩ := a
    cases found with
    | false => rfl
    | true => exact streamHead_withPort k t p

theorem rbWrite_withPort (s : State) (p : List PortEvent) :
    rbWrite (s.withPort p) = (rbWrite s).map (answerWithPort p) := by
  have hlen : writeLength (s.withPort p) = writeLength s := rfl
  rw [rbWrite, rbWrite, State.withPort_count, State.withPort_din, hlen, ringWrite_withPort]
  cases ringWrite s s.count.toNat (s.din.take (writeLength s)) with
  | error f => rfl
  | ok t => rfl

theorem readOut_withPort (k : Nat) (s after : State) (p : List PortEvent) :
    readOut k (s.withPort p) (after.withPort p) = (readOut k s after).map (answerWithPort p) := by
  rw [readOut, readOut, ringBytes_withPort]
  cases ringBytes s 0 k with
  | error f => rfl
  | ok out => rfl

/-- No rule reads what is pending at the port, and none touches it. -/
theorem ruleOf_withPort (i : Instr) (s : State) (p : List PortEvent) :
    ruleOf i (s.withPort p) = (ruleOf i s).map (answerWithPort p) := by
  cases i with
  | rbInit n =>
    have hbad : badCapacity n (s.withPort p) = badCapacity n s := rfl
    rw [ruleOf, ruleOf, hbad]
    cases badCapacity n s with
    | false => rfl
    | true => rfl
  | rbWrite => exact rbWrite_withPort s p
  | rbRead n => exact readOut_withPort (readLength n s) s (discard s (readLength n s)) p
  | rbPeek n => exact readOut_withPort (readLength n s) s s p
  | pStream => exact pStream_withPort s p
  | _ => rfl

/-- A command that ends does so alike whatever is pending. -/
theorem exec_withPort {i : Instr} {s t : State} (h : exec i s = .next t) (p : List PortEvent) :
    exec i (s.withPort p) = .next (t.withPort p) := by
  obtain ⟨hwf, rfl⟩ | ⟨hwf, u, r, hrule, rfl⟩ := exec_eq_next_cases h
  · exact exec_rejected (s := s.withPort p) hwf
  · exact exec_of_ruleOf (s := s.withPort p) hwf (by rw [ruleOf_withPort, hrule]; rfl)

theorem runWord_withPort {w : CmdWord} {s t : State} (h : runWord w s = .next t) (p : List PortEvent) :
    runWord w (s.withPort p) = .next (t.withPort p) := by
  cases hw : decode w with
  | ok i =>
    rw [runWord_ok hw] at h ⊢
    exact exec_withPort h p
  | error e =>
    rw [runWord_error hw] at h ⊢
    cases h
    rfl

/-- A presented word leaves pending what is pending. -/
theorem runWord_port {w : CmdWord} {s t : State} (h : runWord w s = .next t) : t.port = s.port := by
  obtain rfl | ⟨i, u, r, hrule, rfl⟩ := runWord_eq_next_cases h
  · rfl
  · obtain ⟨-, -, hport, -⟩ := ruleOf_ports hrule
    exact hport

/-- A step takes the next event (R45), and takes it alike whatever is pending behind it. -/
theorem step_accepts {s t : State} {e : PortEvent} {rest : List PortEvent} (hp : s.port = e :: rest)
    (h : step s = .next t) :
    t.port = rest ∧ ∀ later, step (s.withPort (e :: later)) = .next (t.withPort later) := by
  cases e with
  | reset =>
    rw [step_reset hp] at h
    cases h
    exact ⟨rfl, fun later => step_reset (s := s.withPort (.reset :: later)) rfl⟩
  | command w din =>
    rw [step_command hp] at h
    refine ⟨runWord_port h, fun later => ?_⟩
    rw [step_command rfl]
    exact runWord_withPort h later

/-- A run that ends took its first step and went on from there. -/
theorem run_succ_eq_next {M : Host.Core} {s t : M.State} {n : Nat} (h : M.run (n + 1) s = .next t) :
    ∃ u, M.step s = .next u ∧ M.run n u = .next t := by
  rw [Host.Core.run] at h
  cases hstep : M.step s with
  | next u => exact ⟨u, rfl, by rwa [hstep] at h⟩
  | fault f => rw [hstep] at h; cases h
  | refused r => rw [hstep] at h; cases h

/-- Settles O12, by induction on the events: the first is taken alike, and the rest run from the state it leaves. -/
theorem laterCommandsInvisible : Obligations.LaterCommandsInvisible := by
  intro s t es more hp h
  induction es generalizing s with
  | nil =>
    cases h
    rfl
  | cons e rest ih =>
    obtain ⟨u, hstep, hrun⟩ := run_succ_eq_next h
    obtain ⟨hport, hsame⟩ := step_accepts hp hstep
    have hfirst : step { s with port := e :: rest ++ more } = .next { u with port := rest ++ more } :=
      hsame (rest ++ more)
    rw [List.length_cons, run_succ_next hfirst]
    exact ih u hport hrun

end Sys2Proof.Machine

namespace Sys2Proof.Machine

/-! ## Words and commands (30_encoding.md R60 to R63, R68) -/

/-- Settles O1: each command's row is selected by its own opcode, and its reserved fields are 0. -/
theorem decodeEncodeRoundTrip : Obligations.DecodeEncodeRoundTrip := decode_encode

theorem reservedZero_f0 {a b c : Byte} {n : Word} :
    Format.f0.reservedZero a b c n = true ↔ a = 0 ∧ b = 0 ∧ c = 0 ∧ n = 0 := by
  simp [Format.reservedZero, and_assoc]

theorem reservedZero_fN {a b c : Byte} {n : Word} :
    Format.fN.reservedZero a b c n = true ↔ a = 0 ∧ b = 0 ∧ c = 0 := by
  simp [Format.reservedZero, and_assoc]

/-- A command's word is put together from its opcode and any fields that are its own, those its format reserves
being 0. -/
theorem encode_eq_ofFields {i : Instr} {a b c : Byte} {n : Word} (hfields : i.hasFields a b c n)
    (hzero : i.format.reservedZero a b c n = true) : encode i = CmdWord.ofFields i.opcode a b c n := by
  cases i with
  | rbInit m | rbRead m | rbPeek m =>
    obtain ⟨rfl, rfl, rfl⟩ := reservedZero_fN.mp hzero
    obtain rfl : n = m := hfields
    rfl
  | bBuild t s f m | bSerialize t s f m =>
    obtain ⟨rfl, rfl, rfl, rfl⟩ := hfields
    rfl
  | _ =>
    obtain ⟨rfl, rfl, rfl, rfl⟩ := reservedZero_f0.mp hzero
    rfl

/-- Settles O2: the word is its own fields put together, and they are the command's. -/
theorem encodeDecodeRoundTrip : Obligations.EncodeDecodeRoundTrip := by
  intro w i h
  obtain ⟨hrow, hzero⟩ := decodeFields_eq_ok.mp h
  obtain ⟨hopc, hfields⟩ := selectRow_eq_some.mp hrow
  rw [encode_eq_ofFields hfields hzero, ← hopc, CmdWord.ofFields_fields]

/-- A word decodes to a command exactly when it is that command's word. -/
theorem decode_eq_ok_iff {w : CmdWord} {i : Instr} : decode w = .ok i ↔ encode i = w :=
  ⟨encodeDecodeRoundTrip w i, fun h => h ▸ decode_encode i⟩

/-- Settles O3: each printed word is the word of the command it is printed for. -/
theorem sampleWordsDecode : Obligations.SampleWordsDecode :=
  ⟨decode_encode .crcCompute, decode_encode (.rbInit 64), decode_encode (.rbRead 0xFFFFFFFF), decode_encode .pStream,
    decode_encode (.bBuild 0x10 0x2A 0x81 16), decode_encode (.bSerialize 0x03 0x01 0x11 12)⟩

/-! ## The opcode table's masks (R62, R63) -/

/-- A mask acts on each field by itself. -/
theorem ofFields_and_ofFields (o a b c o' a' b' c' : Byte) (n n' : Word) :
    CmdWord.ofFields o a b c n &&& CmdWord.ofFields o' a' b' c' n' =
      CmdWord.ofFields (o &&& o') (a &&& a') (b &&& b') (c &&& c') (n &&& n') := by
  refine BitVec.and_append.trans ?_
  rw [BitVec.and_append, BitVec.and_append, BitVec.and_append]
  rfl

theorem ofFields_inj {o a b c o' a' b' c' : Byte} {n n' : Word} :
    CmdWord.ofFields o a b c n = CmdWord.ofFields o' a' b' c' n' ↔
      o = o' ∧ a = a' ∧ b = b' ∧ c = c' ∧ n = n' := by
  constructor
  · intro h
    exact ⟨by simpa using congrArg CmdWord.opc h, by simpa using congrArg CmdWord.fieldA h,
      by simpa using congrArg CmdWord.fieldB h, by simpa using congrArg CmdWord.fieldC h,
      by simpa using congrArg CmdWord.fieldN h⟩
  · rintro ⟨rfl, rfl, rfl, rfl, rfl⟩
    rfl

/-- The mask of format FN keeps all but `N`. -/
theorem ofFields_and_maskFN (o a b c : Byte) (n : Word) :
    CmdWord.ofFields o a b c n &&& 0xFFFFFFFF00000000 = CmdWord.ofFields o a b c 0 := by
  have hmask : (0xFFFFFFFF00000000 : CmdWord) = CmdWord.ofFields 0xFF 0xFF 0xFF 0xFF 0 := by decide
  have hkeep : ∀ x : Byte, x &&& 0xFF = x := fun _ => BitVec.and_allOnes
  have hdrop : n &&& 0 = 0 := BitVec.and_zero
  rw [hmask, ofFields_and_ofFields, hkeep, hkeep, hkeep, hkeep, hdrop]

/-- The mask of format FB keeps the opcode alone. -/
theorem ofFields_and_maskFB (o a b c : Byte) (n : Word) :
    CmdWord.ofFields o a b c n &&& 0xFF00000000000000 = CmdWord.ofFields o 0 0 0 0 := by
  have hmask : (0xFF00000000000000 : CmdWord) = CmdWord.ofFields 0xFF 0 0 0 0 := by decide
  have hkeep : o &&& 0xFF = o := BitVec.and_allOnes
  have hdrop : ∀ x : Byte, x &&& 0 = 0 := fun _ => BitVec.and_zero
  have hdropN : n &&& 0 = 0 := BitVec.and_zero
  rw [hmask, ofFields_and_ofFields, hkeep, hdrop, hdrop, hdrop, hdropN]

theorem matchF0_iff (w : CmdWord) (o : Byte) : w &&& 0xFFFFFFFFFFFFFFFF = encodeF0 o ↔ encodeF0 o = w := by
  have hmask : w &&& 0xFFFFFFFFFFFFFFFF = w := BitVec.and_allOnes
  rw [hmask, eq_comm]

theorem matchFN_iff (w : CmdWord) (o : Byte) :
    w &&& 0xFFFFFFFF00000000 = encodeFN o 0 ↔ ∃ n, encodeFN o n = w := by
  constructor
  · intro h
    rw [← CmdWord.ofFields_fields w, ofFields_and_maskFN, encodeFN, ofFields_inj] at h
    obtain ⟨hopc, ha, hb, hc, -⟩ := h
    have hw := CmdWord.ofFields_fields w
    rw [hopc, ha, hb, hc] at hw
    exact ⟨w.fieldN, hw⟩
  · rintro ⟨n, rfl⟩
    exact ofFields_and_maskFN o 0 0 0 n

theorem matchFB_iff (w : CmdWord) (o : Byte) :
    w &&& 0xFF00000000000000 = encodeFB o 0 0 0 0 ↔ ∃ t s f n, encodeFB o t s f n = w := by
  constructor
  · intro h
    rw [← CmdWord.ofFields_fields w, ofFields_and_maskFB, encodeFB, ofFields_inj] at h
    exact ⟨w.fieldA, w.fieldB, w.fieldC, w.fieldN, by rw [encodeFB, ← h.1, CmdWord.ofFields_fields]⟩
  · rintro ⟨t, s, f, n, rfl⟩
    exact ofFields_and_maskFB o t s f n

/-- Settles O4: a row's match is the word of its command with operands 0, and its mask is its format's. -/
theorem opcodeTableRowsMatch : Obligations.OpcodeTableRowsMatch := by
  intro w
  simp only [decode_eq_ok_iff]
  exact ⟨matchF0_iff w 0x10, matchF0_iff w 0x11, matchFN_iff w 0x20, matchF0_iff w 0x21, matchFN_iff w 0x22,
    matchFN_iff w 0x23, matchF0_iff w 0x24, matchF0_iff w 0x25, matchF0_iff w 0x30, matchF0_iff w 0x31,
    matchF0_iff w 0x32, matchF0_iff w 0x33, matchF0_iff w 0x34, matchFB_iff w 0x40, matchFB_iff w 0x41⟩

/-! ## Command text (R67) -/

/-- The number of a field's value is in the field's range and is read back as that value. -/
theorem assemble_fN (o : Byte) (n : Word) : assemble o .fN [n.toNat] = some (encodeFN o n) := by
  rw [assemble, if_pos n.isLt, BitVec.ofNat_toNat, BitVec.setWidth_eq]

theorem assemble_fB (o t s f : Byte) (n : Word) :
    assemble o .fB [t.toNat, s.toNat, f.toNat, n.toNat] = some (encodeFB o t s f n) := by
  rw [assemble, if_pos ⟨t.isLt, s.isLt, f.isLt, n.isLt⟩]
  simp only [BitVec.ofNat_toNat, BitVec.setWidth_eq]

/-- Settles O5, by the command's format. -/
theorem textOperandsAssemble : Obligations.TextOperandsAssemble := by
  intro i
  cases i with
  | rbInit n => exact assemble_fN _ n
  | rbRead n => exact assemble_fN _ n
  | rbPeek n => exact assemble_fN _ n
  | bBuild t s f n => exact assemble_fB _ t s f n
  | bSerialize t s f n => exact assemble_fB _ t s f n
  | _ => rfl

end Sys2Proof.Machine

namespace Sys2Proof.Machine

/-! ## Command admission (R64) -/

/-- The parts of a word's number that the checks look at, by its fields. -/
theorem toNat_parts (w : CmdWord) :
    w.toNat / 2 ^ 56 = w.opc.toNat ∧
      w.toNat % 2 ^ 56 =
        w.fieldA.toNat * 2 ^ 48 + w.fieldB.toNat * 2 ^ 40 + w.fieldC.toNat * 2 ^ 32 + w.fieldN.toNat ∧
      w.toNat / 2 ^ 32 % 2 ^ 24 = w.fieldA.toNat * 2 ^ 16 + w.fieldB.toNat * 2 ^ 8 + w.fieldC.toNat := by
  have hword := CmdWord.toNat_fields w
  have ha := w.fieldA.isLt
  have hb := w.fieldB.isLt
  have hc := w.fieldC.isLt
  have hn := w.fieldN.isLt
  omega

theorem opc_toNat (w : CmdWord) : w.opc.toNat = w.toNat / 2 ^ 56 := (toNat_parts w).1.symm

/-- What format F0 reserves is every bit below the opcode. -/
theorem reservedZero_f0_iff_toNat (w : CmdWord) :
    Format.f0.reservedZero w.fieldA w.fieldB w.fieldC w.fieldN = true ↔ w.toNat % 2 ^ 56 = 0 := by
  obtain ⟨-, hlow, -⟩ := toNat_parts w
  rw [hlow]
  simp [reservedZero_f0, ← BitVec.toNat_inj, and_assoc]

/-- What format FN reserves is the three bytes between the opcode and `N`. -/
theorem reservedZero_fN_iff_toNat (w : CmdWord) :
    Format.fN.reservedZero w.fieldA w.fieldB w.fieldC w.fieldN = true ↔ w.toNat / 2 ^ 32 % 2 ^ 24 = 0 := by
  obtain ⟨-, -, hmid⟩ := toNat_parts w
  rw [hmid]
  simp [reservedZero_fN, ← BitVec.toNat_inj, and_assoc]

/-- The opcodes of the rows of R63 with format F0. -/
def opcodesF0 : List Nat := [0x10, 0x11, 0x21, 0x24, 0x25, 0x30, 0x31, 0x32, 0x33, 0x34]

/-- The opcodes of the rows of R63 with format FN. -/
def opcodesFN : List Nat := [0x20, 0x22, 0x23]

/-- The opcodes of the rows of R63 with format FB. -/
def opcodesFB : List Nat := [0x40, 0x41]

/-- The opcodes of the rows of R63 whose DIN must be empty. -/
def opcodesNoDin : List Nat := [0x20, 0x22, 0x23, 0x24, 0x25, 0x33, 0x34]

/-- One of the four checks of R64 fails on the bits of the word `w` or on its operand `din`. -/
def AdmissionFails (p : Params) (w : CmdWord) (din : List Byte) : Prop :=
  w.toNat / 2 ^ 56 ∉ opcodesF0 ++ opcodesFN ++ opcodesFB ∨
    (w.toNat / 2 ^ 56 ∈ opcodesF0 ∧ w.toNat % 2 ^ 56 ≠ 0) ∨
    (w.toNat / 2 ^ 56 ∈ opcodesFN ∧ w.toNat / 2 ^ 32 % 2 ^ 24 ≠ 0) ∨
    (w.toNat / 2 ^ 56 ∈ opcodesNoDin ∧ din ≠ []) ∨ p.maxInputLen < din.length

theorem opcode_mem_opcodes (i : Instr) : i.opcode.toNat ∈ opcodesF0 ++ opcodesFN ++ opcodesFB := by
  cases i <;> simp [Instr.opcode, opcodesF0, opcodesFN, opcodesFB]

theorem opcode_mem_opcodesF0 (i : Instr) : i.opcode.toNat ∈ opcodesF0 ↔ i.format = .f0 := by
  cases i <;> simp [Instr.opcode, opcodesF0, Instr.format]

theorem opcode_mem_opcodesFN (i : Instr) : i.opcode.toNat ∈ opcodesFN ↔ i.format = .fN := by
  cases i <;> simp [Instr.opcode, opcodesFN, Instr.format]

theorem opcode_mem_opcodesNoDin (i : Instr) : i.opcode.toNat ∈ opcodesNoDin ↔ i.dinMustBeEmpty = true := by
  cases i <;> simp [Instr.opcode, opcodesNoDin, Instr.dinMustBeEmpty]

/-- No row is selected exactly by an opcode outside the three formats' lists. -/
theorem selectRow_eq_none_iff_toNat {o a b c : Byte} {n : Word} :
    selectRow o a b c n = none ↔ o.toNat ∉ opcodesF0 ++ opcodesFN ++ opcodesFB := by
  rw [selectRow_eq_none, ← List.mem_map_of_injective BitVec.toNat_injective]
  exact not_congr (List.Perm.mem_iff (by decide))

/-- Check 2 of R64 on the word's bits: a field that the selected row's format reserves is not 0. -/
theorem reservedZero_eq_false_iff (w : CmdWord) (f : Format) :
    ¬f.reservedZero w.fieldA w.fieldB w.fieldC w.fieldN = true ↔
      (f = .f0 ∧ w.toNat % 2 ^ 56 ≠ 0) ∨ (f = .fN ∧ w.toNat / 2 ^ 32 % 2 ^ 24 ≠ 0) := by
  cases f with
  | f0 => simp [reservedZero_f0_iff_toNat]
  | fN => simp [reservedZero_fN_iff_toNat]
  | fB => simp [Format.reservedZero]

/-- With a row selected, check 1 passes and the other three are about its command. -/
theorem admissionFails_of_selectRow {p : Params} {w : CmdWord} {din : List Byte} {i : Instr}
    (h : selectRow w.opc w.fieldA w.fieldB w.fieldC w.fieldN = some i) :
    AdmissionFails p w din ↔
      ¬i.format.reservedZero w.fieldA w.fieldB w.fieldC w.fieldN = true ∨ ¬WellFormed p i din := by
  have hopc := (selectRow_eq_some.mp h).1
  rw [AdmissionFails, ← opc_toNat, hopc, opcode_mem_opcodesF0, opcode_mem_opcodesFN, opcode_mem_opcodesNoDin,
    reservedZero_eq_false_iff, not_and_or, WellFormed.dinFits, not_le, WellFormed.dinAllowed, Classical.not_imp]
  simp only [opcode_mem_opcodes, not_true_eq_false, false_or, or_assoc, ne_eq]

/-- No check of R64 fails exactly when the word decodes to a command that is well-formed with its operand. -/
theorem not_admissionFails_iff {p : Params} {w : CmdWord} {din : List Byte} :
    ¬AdmissionFails p w din ↔ ∃ i, decode w = .ok i ∧ WellFormed p i din := by
  simp only [decode, decodeFields_eq_ok]
  cases h : selectRow w.opc w.fieldA w.fieldB w.fieldC w.fieldN with
  | none =>
    have hopc := selectRow_eq_none_iff_toNat.mp h
    rw [opc_toNat] at hopc
    have hfails : AdmissionFails p w din := .inl hopc
    simp [hfails]
  | some i =>
    rw [admissionFails_of_selectRow h, not_or, not_not, not_not]
    simp

/-- Where the word or its operand fails a check, `INVALID_ARG` is delivered and nothing else changes. -/
theorem runWord_rejected {w : CmdWord} {s : State} (h : ¬∃ i, decode w = .ok i ∧ WellFormed s.params i s.din) :
    runWord w s = .next (s.deliver (Result.error .invalidArg)) := by
  cases hw : decode w with
  | error e => rw [runWord_error hw, rejectWord]
  | ok i => rw [runWord_ok hw, exec_rejected fun hwf => h ⟨i, hw, hwf⟩]

/-- Settles O6: a check fails on the bits exactly when no well-formed command is decoded. -/
theorem admissionChecks : Obligations.AdmissionChecks := by
  intro s w din rest hp
  rw [step_command hp]
  change (AdmissionFails s.params w din → _) ∧ (¬AdmissionFails s.params w din → _)
  constructor
  · intro hfails
    exact runWord_rejected fun hok => not_admissionFails_iff.mpr hok hfails
  · intro hpass
    obtain ⟨i, hw, hwf⟩ := not_admissionFails_iff.mp hpass
    exact ⟨i, hw, hwf, runWord_ok hw _⟩

/-! ## Status codes (R65) -/

/-- The statuses that R65 lists for the rule of a command, once it is admitted. -/
def listedStatuses : Instr → List Status
  | .rbInit _ => [.ok, .invalidArg]
  | .pParse | .pValidate | .pExtract => [.ok, .invalidArg, .noSync, .badLength, .badCrc, .badVersion]
  | .pStream => [.ok, .needMoreData, .badLength, .badCrc, .badVersion]
  | .bBuild _ _ _ _ | .bSerialize _ _ _ _ => [.ok, .badLength, .bufferFull]
  | .crcCompute | .crcVerify | .rbWrite | .rbRead _ | .rbPeek _ | .rbAvail | .rbFree | .pSkipcnt => [.ok]

/-- The commands that parse the data-in operand (R131 to R133). -/
def FlatParse (i : Instr) : Prop := i = .pParse ∨ i = .pValidate ∨ i = .pExtract

/-- The commands that write a frame (R161, R162). -/
def FrameBuilder (i : Instr) : Prop := ∃ ty sq fl n, i = .bBuild ty sq fl n ∨ i = .bSerialize ty sq fl n

theorem flatResult_status_mem {b : List Byte} {g : Frame → Result} (hg : ∀ f, (g f).status = .ok) :
    (flatResult b g).status ∈ listedStatuses .pParse := by
  obtain ⟨st, hst, h⟩ | ⟨f, -, h⟩ := flatResult_cases b g
  · rw [h]
    obtain rfl | rfl | rfl | rfl | rfl := frameCheck_eq_error hst <;> decide
  · rw [h, hg]
    decide

theorem writeResult_status_mem (type seq flags : Byte) (p : List Byte) (n : Word) :
    (writeResult (writeFrame type seq flags p n)).status ∈ listedStatuses (.bBuild type seq flags n) := by
  obtain ⟨-, h⟩ | ⟨-, -, h⟩ | ⟨-, -, out, -, h⟩ := writeResult_cases type seq flags p n <;>
    simp [h, Result.error, listedStatuses]

/-- A rule that answers returns a status that R65 lists for its command. -/
theorem ruleOf_status_mem {i : Instr} {s u : State} {r : Result} (h : ruleOf i s = .ok (u, r)) :
    r.status ∈ listedStatuses i := by
  cases i with
  | rbInit n =>
    obtain ⟨-, -, rfl⟩ | ⟨-, -, rfl⟩ := rbInit_cases h <;> simp [Result.error, listedStatuses]
  | rbWrite =>
    obtain ⟨-, rfl, -⟩ := rbWrite_frame h
    exact List.mem_singleton_self _
  | rbRead n | rbPeek n =>
    obtain ⟨-, out, -, rfl⟩ := readOut_eq_ok h
    exact List.mem_singleton_self _
  | pStream =>
    obtain h | h | h | h | h := (pStream_answer h).status <;> simp [h, listedStatuses]
  | pParse | pValidate | pExtract =>
    cases h
    exact flatResult_status_mem fun _ => rfl
  | bBuild ty sq fl n | bSerialize ty sq fl n =>
    cases h
    exact writeResult_status_mem ty sq fl _ n
  | crcCompute | crcVerify | rbAvail | rbFree | pSkipcnt =>
    cases h
    exact List.mem_singleton_self _

theorem needMoreData_listed {i : Instr} (h : .needMoreData ∈ listedStatuses i) : i = .pStream := by
  cases i <;> simp [listedStatuses] at h ⊢

theorem invalidArg_listed {i : Instr} (h : .invalidArg ∈ listedStatuses i) : FlatParse i ∨ ∃ n, i = .rbInit n := by
  cases i <;> simp [listedStatuses, FlatParse] at h ⊢

theorem noSync_listed {i : Instr} (h : .noSync ∈ listedStatuses i) : FlatParse i := by
  cases i <;> simp [listedStatuses, FlatParse] at h ⊢

theorem badLength_listed {i : Instr} (h : .badLength ∈ listedStatuses i) :
    FlatParse i ∨ i = .pStream ∨ FrameBuilder i := by
  cases i <;> simp [listedStatuses, FlatParse, FrameBuilder] at h ⊢

theorem badCrc_listed {i : Instr} (h : .badCrc ∈ listedStatuses i) : FlatParse i ∨ i = .pStream := by
  cases i <;> simp [listedStatuses, FlatParse] at h ⊢

theorem bufferFull_listed {i : Instr} (h : .bufferFull ∈ listedStatuses i) : FrameBuilder i := by
  cases i <;> simp [listedStatuses, FrameBuilder] at h ⊢

theorem noMemory_not_listed (i : Instr) : .noMemory ∉ listedStatuses i := by
  cases i <;> simp [listedStatuses]

theorem badVersion_listed {i : Instr} (h : .badVersion ∈ listedStatuses i) : FlatParse i ∨ i = .pStream := by
  cases i <;> simp [listedStatuses, FlatParse] at h ⊢

/-- Settles O19: a rejection returns `INVALID_ARG` on an operand that fails, and a rule the statuses listed for its
command. -/
theorem statusCodesReturned : Obligations.StatusCodesReturned := by
  refine ⟨by decide, fun i s t r h hr => ?_⟩
  obtain ⟨hwf, rfl, -⟩ | ⟨-, u, hrule, -⟩ := exec_record_cases h hr
  · simp [Result.error, hwf]
  · have hlisted : ∀ st, r.status = st → st ∈ listedStatuses i := fun _ hst => hst ▸ ruleOf_status_mem hrule
    exact ⟨fun hst => needMoreData_listed (hlisted _ hst), fun hst => .inr (invalidArg_listed (hlisted _ hst)),
      fun hst => noSync_listed (hlisted _ hst), fun hst => badLength_listed (hlisted _ hst),
      fun hst => badCrc_listed (hlisted _ hst), fun hst => bufferFull_listed (hlisted _ hst),
      fun hst => noMemory_not_listed i (hlisted _ hst), fun hst => badVersion_listed (hlisted _ hst)⟩

end Sys2Proof.Machine

namespace Sys2Proof.Machine

/-! ## The rounds of the checksum (40_checksum.md R100) -/

/-- Bit 15 is 1 in the upper half of the values. -/
theorem getLsbD_15_eq_decide (c : Half) : c.getLsbD 15 = decide (2 ^ 15 ≤ c.toNat) := BitVec.msb_eq_decide c

/-- A shift by one as a number. -/
theorem shiftLeft_one_toNat (c : Half) : (c <<< 1).toNat = c.toNat * 2 % 2 ^ 16 := by
  rw [BitVec.toNat_shiftLeft, Nat.shiftLeft_eq, Nat.pow_one]

/-- A round only shifts while bit 15 is 0. -/
theorem crcRound_of_lt {c : Half} (h : c.toNat < 2 ^ 15) : crcRound c = c <<< 1 := by
  rw [crcRound, getLsbD_15_eq_decide, if_neg (by simpa using h)]

/-- A round with bit 15 equal to 1 also XORs the polynomial. -/
theorem crcRound_of_le {c : Half} (h : 2 ^ 15 ≤ c.toNat) : crcRound c = c <<< 1 ^^^ CRC_POLY := by
  rw [crcRound, getLsbD_15_eq_decide, if_pos (by simpa using h)]

/-- Rounds only shift while no 1 is shifted out. -/
theorem crcRounds_eq_shiftLeft {n : Nat} {c : Half} (h : c.toNat * 2 ^ n < 2 ^ 16) : crcRounds n c = c <<< n := by
  induction n generalizing c with
  | zero => exact (BitVec.shiftLeft_zero c).symm
  | succ n ih =>
    have hpow : c.toNat * 2 * 2 ^ n < 2 ^ 16 := by rwa [Nat.mul_assoc, ← Nat.pow_succ']
    have hfit : c.toNat * 2 < 2 ^ 16 := Nat.lt_of_le_of_lt (Nat.le_mul_of_pos_right _ (Nat.two_pow_pos n)) hpow
    have hshift : (c <<< 1).toNat = c.toNat * 2 := by rw [shiftLeft_one_toNat, Nat.mod_eq_of_lt hfit]
    rw [crcRounds, crcRound_of_lt (by omega), ih (by rwa [hshift]), ← BitVec.shiftLeft_add, Nat.add_comm]

/-- A round of a sum is the sum of the rounds: the polynomial is XORed for each of the two bits 15 that is 1. -/
theorem crcRound_xor (a b : Half) : crcRound (a ^^^ b) = crcRound a ^^^ crcRound b := by
  simp only [crcRound, BitVec.getLsbD_xor, BitVec.shiftLeft_xor_distrib]
  cases a.getLsbD 15 <;> cases b.getLsbD 15
  · rfl
  · exact BitVec.xor_assoc _ _ _
  · simp only [Bool.true_bne, Bool.not_false, if_true, Bool.false_eq_true, if_false]
    ac_rfl
  · have hcancel : (a <<< 1 ^^^ CRC_POLY) ^^^ (b <<< 1 ^^^ CRC_POLY) =
        (a <<< 1 ^^^ b <<< 1) ^^^ (CRC_POLY ^^^ CRC_POLY) := by ac_rfl
    simp [hcancel]

theorem crcRounds_xor (n : Nat) (a b : Half) : crcRounds n (a ^^^ b) = crcRounds n a ^^^ crcRounds n b := by
  induction n generalizing a b with
  | zero => rfl
  | succ n ih => rw [crcRounds, crcRound_xor, ih, ← crcRounds, ← crcRounds]

/-- A round loses nothing: the bit that the shift drops returns as bit 0 of the polynomial. -/
theorem crcRound_eq_zero_iff {c : Half} : crcRound c = 0 ↔ c = 0 := by
  refine ⟨fun h => ?_, by rintro rfl; rfl⟩
  have hbit : c.toNat < 2 ^ 15 := by
    by_contra hc
    have h0 := congrArg (BitVec.getLsbD · 0) h
    simp [crcRound_of_le (not_lt.mp hc), CRC_POLY] at h0
  rw [crcRound_of_lt hbit] at h
  have hshift := shiftLeft_one_toNat c
  rw [h] at hshift
  bv_omega

theorem crcRounds_eq_zero_iff {n : Nat} {c : Half} : crcRounds n c = 0 ↔ c = 0 := by
  induction n generalizing c with
  | zero => rfl
  | succ n ih => rw [crcRounds, ih, crcRound_eq_zero_iff]

/-- Different registers stay different through the rounds. -/
theorem crcRounds_injective (n : Nat) : Function.Injective (crcRounds n) := by
  intro a b h
  rw [← BitVec.xor_eq_zero_iff, ← crcRounds_xor] at h
  exact BitVec.xor_eq_zero_iff.mp (crcRounds_eq_zero_iff.mp h)

/-- The rounds are one function, repeated. -/
theorem crcRounds_eq_iterate (n : Nat) : crcRounds n = crcRound^[n] := by
  induction n with
  | zero => rfl
  | succ n ih => rw [Function.iterate_succ, ← ih]; rfl

/-- A round as R100 says it, on numbers. -/
theorem crcRound_eq_ofNat (c : Half) : crcRound c =
    if 2 ^ 15 ≤ c.toNat then BitVec.ofNat 16 (c.toNat * 2 % 2 ^ 16) ^^^ 0x1021
    else BitVec.ofNat 16 (c.toNat * 2 % 2 ^ 16) := by
  rw [← shiftLeft_one_toNat, BitVec.ofNat_toNat, BitVec.setWidth_eq]
  split
  next h => exact crcRound_of_le h
  next h => exact crcRound_of_lt (not_le.mp h)

/-- A byte in the high half, as a number. -/
theorem highByte_eq_ofNat (b : Byte) : b.setWidth 16 <<< 8 = BitVec.ofNat 16 (b.toNat * 256) := by
  have hb := b.isLt
  apply BitVec.eq_of_toNat_eq
  simp [Nat.shiftLeft_eq]

/-- Settles O28: a round is R100's function on numbers, and the listed entries are computed. -/
theorem crcTableEntries : Obligations.CrcTableEntries := by
  refine ⟨fun i => ?_, by decide⟩
  rw [crcTable, crcRounds_eq_iterate, highByte_eq_ofNat]
  exact congrArg (fun f : Half → Half => f^[8] _) (funext crcRound_eq_ofNat)

/-! ## The update for one byte (R101, R102) -/

/-- `be16` as a sum. -/
theorem be16_eq_xor (hi lo : Byte) : be16 hi lo = hi.setWidth 16 <<< 8 ^^^ lo.setWidth 16 := by
  refine BitVec.eq_of_getLsbD_eq fun i hi16 => ?_
  rw [be16, BitVec.getLsbD_append]
  by_cases h8 : i < 8
  · simp [h8, hi16]
  · simp [h8, hi16, BitVec.getLsbD_of_ge lo i (not_lt.mp h8)]

/-- A register is its high byte and its low byte. -/
theorem be16_extractLsb' (c : Half) : be16 (c.extractLsb' 8 8) (c.extractLsb' 0 8) = c := by
  have hc := c.isLt
  apply BitVec.eq_of_toNat_eq
  rw [be16_toNat, BitVec.extractLsb'_toNat, BitVec.extractLsb'_toNat, Nat.shiftRight_eq_div_pow]
  omega

/-- Eight rounds of a byte in the low half only shift it. -/
theorem crcRounds_lowByte (b : Byte) : crcRounds 8 (b.setWidth 16) = b.setWidth 16 <<< 8 :=
  crcRounds_eq_shiftLeft (by have := b.isLt; rw [BitVec.toNat_setWidth]; omega)

/-- A shift by eight drops the high byte. -/
theorem be16_shiftLeft (hi lo : Byte) : be16 hi lo <<< 8 = lo.setWidth 16 <<< 8 := by
  apply BitVec.eq_of_toNat_eq
  rw [BitVec.toNat_shiftLeft, be16_toNat, highByte_eq_ofNat, BitVec.toNat_ofNat, Nat.shiftLeft_eq]
  omega

/-- The high byte of a register goes through the table, and its low byte is only shifted (R102). -/
theorem crcStep_eq_crcBitStep (reg : Half) (b : Byte) : crcStep reg b = crcBitStep reg b := by
  have hreg := be16_extractLsb' reg
  have hsplit : reg ^^^ b.setWidth 16 <<< 8 =
      (reg.extractLsb' 0 8).setWidth 16 ^^^ (reg.extractLsb' 8 8 ^^^ b).setWidth 16 <<< 8 := by
    conv_lhs => rw [← hreg, be16_eq_xor]
    rw [BitVec.setWidth_xor, BitVec.shiftLeft_xor_distrib]
    ac_rfl
  rw [crcBitStep, hsplit, crcRounds_xor, crcRounds_lowByte, ← be16_shiftLeft, hreg, crcStep, crcTable]

/-- Settles O30: the two updates agree on every register and byte. -/
theorem crcEqualsBitSerial : Obligations.CrcEqualsBitSerial := by
  intro d
  rw [crc16, crc16BitSerial, funext₂ crcStep_eq_crcBitStep]

theorem crc16_append (d e : List Byte) : crc16 (d ++ e) = e.foldl crcStep (crc16 d) := List.foldl_append

/-- Settles O29: the checksum folds the update over the bytes, and the table's index is the register's high byte. -/
theorem crcTableDrivenUpdate : Obligations.CrcTableDrivenUpdate := by
  refine ⟨rfl, fun d b => ?_⟩
  have hhigh : (crc16 d).extractLsb' 8 8 = (crc16 d >>> 8).setWidth 8 := rfl
  rw [crc16_append, ← hhigh]
  rfl

/-! ## The checksum detects every changed byte (R104, R106) -/

/-- After the same byte, different registers stay different. -/
theorem crcStep_left_injective (b : Byte) : Function.Injective (crcStep · b) := by
  intro r r' h
  simp only [crcStep_eq_crcBitStep, crcBitStep] at h
  exact (BitVec.xor_left_inj _).mp (crcRounds_injective 8 h)

/-- From the same register, different bytes lead to different registers. -/
theorem crcStep_right_injective (reg : Half) : Function.Injective (crcStep reg) := by
  intro b b' h
  simp only [crcStep_eq_crcBitStep, crcBitStep] at h
  have hhigh := (BitVec.xor_right_inj _).mp (crcRounds_injective 8 h)
  rw [highByte_eq_ofNat, highByte_eq_ofNat] at hhigh
  bv_omega

/-- Over the same bytes, different registers stay different. -/
theorem foldl_crcStep_injective (d : List Byte) : Function.Injective (d.foldl crcStep) := by
  induction d with
  | nil => exact fun _ _ h => h
  | cons b d ih => exact ih.comp (crcStep_left_injective b)

/-- A sequence with one byte changed has another checksum. -/
theorem crc16_set_ne {b : List Byte} {i : Nat} (hi : i < b.length) {x : Byte} (hx : x ≠ b[i]) :
    crc16 (b.set i x) ≠ crc16 b := by
  intro h
  have hb : b = b.take i ++ b[i] :: b.drop (i + 1) := by simp
  rw [List.set_eq_take_append_cons_drop, if_pos hi] at h
  conv_rhs at h => rw [hb]
  rw [crc16_append, crc16_append] at h
  exact hx (crcStep_right_injective _ (foldl_crcStep_injective _ h))

/-- The two bytes after `d` bring the register to 0 exactly when they are the checksum of `d`. -/
theorem crc16_append_pair_eq_zero_iff (d : List Byte) (hi lo : Byte) :
    crc16 (d ++ [hi, lo]) = 0 ↔ crc16 d = be16 hi lo := by
  have hrounds : crc16 (d ++ [hi, lo]) = crcRounds 8 (crcRounds 8 (crc16 d ^^^ be16 hi lo)) := by
    rw [crc16_append, be16_eq_xor, ← BitVec.xor_assoc, crcRounds_xor, crcRounds_lowByte]
    simp only [List.foldl_cons, List.foldl_nil, crcStep_eq_crcBitStep, crcBitStep]
  rw [hrounds, crcRounds_eq_zero_iff, crcRounds_eq_zero_iff]
  exact BitVec.xor_eq_zero_iff

/-- `crc_ok` compares the last two bytes with the checksum of those before them (R104). -/
theorem crcOk_iff (b : List Byte) : crcOk b = true ↔
    2 ≤ b.length ∧ crc16 (b.take (b.length - 2)) = be16 (b.getD (b.length - 2) 0) (b.getD (b.length - 1) 0) := by
  rw [crcOk]
  split
  next h => simp [h]
  next h => simp [not_lt.mp h, slice, byteAt]

/-- A sequence of two bytes or more ends in two bytes. -/
theorem take_append_pair {b : List Byte} (h : 2 ≤ b.length) :
    b.take (b.length - 2) ++ [b.getD (b.length - 2) 0, b.getD (b.length - 1) 0] = b := by
  have hdrop : b.drop (b.length - 2) = [b.getD (b.length - 2) 0, b.getD (b.length - 1) 0] := by
    have hlast : b.length - 2 + 1 = b.length - 1 := by omega
    rw [List.getD_eq_getElem b 0 (by omega), List.getD_eq_getElem b 0 (by omega), List.drop_eq_getElem_cons (by omega),
      hlast, List.drop_length_sub_one (List.ne_nil_of_length_pos (by omega)), List.getLast_eq_getElem]
  rw [← hdrop, List.take_append_drop]

/-- A checksum is valid exactly when the register ends at 0 behind it. -/
theorem crcOk_iff_crc16_eq_zero {b : List Byte} : crcOk b = true ↔ 2 ≤ b.length ∧ crc16 b = 0 := by
  rw [crcOk_iff]
  refine and_congr_right fun h => ?_
  rw [← crc16_append_pair_eq_zero_iff, take_append_pair h]

/-- Flipping one bit of a byte changes the byte. -/
theorem xor_one_shiftLeft_ne {k : Nat} (hk : k < 8) (b : Byte) : b ^^^ 1 <<< k ≠ b := by
  have hmask : ∀ k < 8, ((1 <<< k : Nat) : Byte) ≠ 0 := by decide
  intro h
  exact hmask k hk ((BitVec.xor_right_inj b).mp (h.trans BitVec.xor_zero.symm))

/-- Settles O31: the flip changes one byte, so the register no longer ends at 0. -/
theorem crcDetectsSingleBitFlip : Obligations.CrcDetectsSingleBitFlip := by
  intro b hb i hi k hk
  obtain ⟨-, hzero⟩ := crcOk_iff_crc16_eq_zero.mp hb
  rw [Bool.eq_false_iff, ne_eq, crcOk_iff_crc16_eq_zero]
  rintro ⟨-, hflip⟩
  exact crc16_set_ne hi (xor_one_shiftLeft_ne hk _) (hflip.trans hzero.symm)

/-! ## CRC_COMPUTE and CRC_VERIFY (R103, R105) -/

theorem be16_eq_ofNat (hi lo : Byte) : be16 hi lo = BitVec.ofNat 16 (hi.toNat * 256 + lo.toNat) := by
  rw [← be16_toNat, BitVec.ofNat_toNat, BitVec.setWidth_eq]

/-- A DIN longer than `MAX_INPUT_LEN` is refused by every command (R64 check 4). -/
theorem exec_of_din_too_long {i : Instr} {s : State} (h : s.params.maxInputLen < s.din.length) :
    exec i s = .next (s.deliver (Result.error .invalidArg)) :=
  exec_rejected fun hwf => not_le.mpr h hwf.2

theorem exec_crcCompute_admitted {s : State} (h : s.din.length ≤ s.params.maxInputLen) :
    exec .crcCompute s = .next (s.deliver { status := .ok, value := (crc16 s.din).setWidth 32 }) :=
  exec_of_ruleOf ⟨nofun, h⟩ rfl

theorem exec_crcVerify_admitted {s : State} (h : s.din.length ≤ s.params.maxInputLen) :
    exec .crcVerify s = .next (s.deliver { status := .ok, value := if crcOk s.din then 1 else 0 }) :=
  exec_of_ruleOf ⟨nofun, h⟩ rfl

/-- Settles O32: the rule answers with the checksum on an operand that fits, and admission refuses a longer one. -/
theorem crcComputeResult : Obligations.CrcComputeResult :=
  ⟨decode_encode .crcCompute, fun _ h => exec_crcCompute_admitted h, fun _ h => exec_of_din_too_long h, rfl,
    fun _ => rfl, by decide⟩

/-- Settles O33: the rule answers with the predicate's truth value, and a mismatch is an answer too. -/
theorem crcVerifyResult : Obligations.CrcVerifyResult := by
  refine ⟨decode_encode .crcVerify, fun b => ?_, fun s => ⟨fun h => ?_, fun h => exec_of_din_too_long h⟩⟩
  · rw [crcOk_iff, be16_eq_ofNat]
  · rw [exec_crcVerify_admitted h]
    constructor
    · intro hok
      rw [hok]
      rfl
    · intro hok
      rw [hok]
      rfl

end Sys2Proof.Machine

namespace Sys2Proof.Machine

/-! ## The history of the buffer (41_ring_buffer.md R118) -/

/-- The unread bytes listed offset by offset are the sequence they form. -/
theorem State.Unread.unreadList_eq {s : State} {l : List Byte} (hl : s.Unread l) : s.unreadList = l := by
  obtain ⟨hlen, hbyte⟩ := hl
  have htakes : ∀ k ≤ l.length, (List.range k).filterMap s.unreadByte = l.take k := by
    intro k hk
    induction k with
    | zero => rfl
    | succ k ih =>
      rw [List.range_succ, List.filterMap_append, ih (by omega), List.take_add_one, ← hbyte k (by omega)]
      cases hb : s.unreadByte k <;> simp [hb]
  rw [State.unreadList, ← hlen, htakes _ le_rfl, List.take_length]

/-- R118 of a state whose unread bytes are `l`. -/
theorem History.holds_iff {h : History} {s : State} {l : List Byte} (hl : s.Unread l) :
    h.Holds s ↔ h.accepted = h.removed ++ l := by
  rw [History.Holds, hl.unreadList_eq]
  exact and_iff_right hl

/-- An empty buffer begins an empty history. -/
theorem History.holds_of_empty {s : State} (h : s.count = 0) : History.Holds ⟨[], []⟩ s := by
  have hcount : s.count.toNat = 0 := by rw [h]; rfl
  have hl : s.Unread [] := ⟨hcount.symm, fun i hi => by omega⟩
  exact (History.holds_iff hl).mpr rfl

/-- Removing the `n` oldest unread bytes moves them to the removed ones. -/
theorem History.Holds.discard {h : History} {s : State} (hh : h.Holds s) (hs : s.RegsLegal) (n : Nat) :
    History.Holds ⟨h.accepted, h.removed ++ s.unreadList.take n⟩ (Machine.discard s n) := by
  obtain ⟨hl, hfifo⟩ := hh
  rw [History.holds_iff (hl.discard hs n), List.append_assoc, List.take_append_drop, hfifo]

/-- `RB_WRITE`'s rule appends the bytes it accepts (R112). -/
theorem rbWrite_history {h : History} {s u : State} {r : Result} (hs : s.RegsLegal) (hh : h.Holds s)
    (hrule : rbWrite s = .ok (u, r)) : (h.command .rbWrite s s.din r).Holds u := by
  obtain ⟨hl, hfifo⟩ := hh
  obtain ⟨t, hspec, hw⟩ := rbWrite_spec hs
  rw [hspec] at hrule
  cases hrule
  have hlen : (BitVec.ofNat 32 (writeLength s)).toNat = writeLength s :=
    toNat_ofNat_word (by have := count_add_writeLength_le hs; have := s.cap.isLt; omega)
  rw [History.holds_iff (hw.unread hl hs), History.command, hlen, hfifo, List.append_assoc]

/-- `RB_READ`'s rule removes as many bytes as its value says (R113). -/
theorem rbRead_history {h : History} {s u : State} {r : Result} {n : Word} (hs : s.RegsLegal) (hh : h.Holds s)
    (hrule : ruleOf (.rbRead n) s = .ok (u, r)) : (h.command (.rbRead n) s s.din r).Holds u := by
  obtain ⟨rfl, out, -, rfl⟩ := readOut_eq_ok hrule
  have hlen : (BitVec.ofNat 32 (readLength n s)).toNat = readLength n s :=
    toNat_ofNat_word ((Nat.min_le_left _ _).trans_lt n.isLt)
  rw [History.command, hlen]
  exact hh.discard hs _

/-- `P_STREAM`'s rule removes as many bytes as its value says (R135). -/
theorem pStream_history {h : History} {s u : State} {r : Result} (hs : s.RegsLegal) (hh : h.Holds s)
    (hrule : pStream s = .ok (u, r)) : (h.command .pStream s s.din r).Holds u := by
  have ⟨hl, _⟩ := hh
  obtain ⟨hspec, hle⟩ := pStream_spec hs hl
  rw [hspec] at hrule
  cases hrule
  have hlen : (BitVec.ofNat 32 (seqStream s.cap.toNat s.unreadList).removed).toNat =
      (seqStream s.cap.toNat s.unreadList).removed :=
    toNat_ofNat_word (by have := hl.1; have := s.count.isLt; omega)
  rw [History.command, StreamOutcome.record, hlen]
  exact hh.discard hs _

/-- The rule of every command keeps R118: the three that move bytes record them, `RB_INIT` begins a new history where it
does not refuse, and the others neither change the buffer nor the history. -/
theorem ruleOf_history {h : History} {i : Instr} {s u : State} {r : Result} (hs : s.RegsLegal) (hh : h.Holds s)
    (hrule : ruleOf i s = .ok (u, r)) : (h.command i s s.din r).Holds u := by
  cases i with
  | rbInit n =>
    obtain ⟨-, rfl, rfl⟩ | ⟨-, rfl, rfl⟩ := rbInit_cases hrule
    · exact hh
    · exact History.holds_of_empty rfl
  | rbWrite => exact rbWrite_history hs hh hrule
  | rbRead n => exact rbRead_history hs hh hrule
  | pStream => exact pStream_history hs hh hrule
  | _ => exact ruleOf_eq_self rfl hrule ▸ hh

/-- A command that was turned away leaves the history as it was (R64). -/
theorem History.command_rejected (h : History) (i : Instr) (s : State) (din : List Byte) :
    h.command i s din (Result.error .invalidArg) = h := by
  cases i <;> simp [History.command, Result.error]

/-- A presented command that decodes keeps R118, with the record it delivers. -/
theorem exec_history {h : History} {i : Instr} {s t : State} (hs : s.RegsLegal) (hh : h.Holds s)
    (hrun : exec i s = .next t) : ∃ r, t.results = s.results ++ [r] ∧ (h.command i s s.din r).Holds t := by
  obtain ⟨-, rfl⟩ | ⟨-, u, r, hrule, rfl⟩ := exec_eq_next_cases hrun
  · exact ⟨_, rfl, (h.command_rejected i s s.din).symm ▸ hh⟩
  · obtain ⟨hresults, -⟩ := ruleOf_ports hrule
    have hnext := ruleOf_history hs hh hrule
    exact ⟨r, congrArg (· ++ [r]) hresults, hnext⟩

/-! The history after a step, by its event. -/

theorem History.next_nil (h : History) {s : State} (t : State) (hp : s.port = []) : h.next s t = h := by
  rw [History.next, hp]

theorem History.next_reset (h : History) {s : State} (t : State) {rest : List PortEvent}
    (hp : s.port = .reset :: rest) : h.next s t = ⟨[], []⟩ := by
  rw [History.next, hp]

theorem History.next_command (h : History) {s t : State} {w : CmdWord} {din : List Byte} {rest : List PortEvent}
    {i : Instr} {r : Result} (hp : s.port = .command w din :: rest) (hw : decode w = .ok i)
    (hr : t.results = s.results ++ [r]) : h.next s t = h.command i s din r := by
  simp only [History.next, hp, hw, hr, List.getLast?_concat]

theorem History.next_noCommand (h : History) {s : State} (t : State) {w : CmdWord} {din : List Byte}
    {rest : List PortEvent} {e : DecodeError} (hp : s.port = .command w din :: rest) (hw : decode w = .error e) :
    h.next s t = h := by
  simp only [History.next, hp, hw]

/-- Every step keeps R118, by the next event at the port: none, a reset, or a presented word, a command or not. -/
theorem step_history {h : History} {s t : State} (hs : s.Inv) (hh : h.Holds s) (hstep : step s = .next t) :
    (h.next s t).Holds t := by
  obtain ⟨hp, rfl⟩ | ⟨rest, hp, rfl⟩ | ⟨w, din, rest, hp, hrun⟩ := step_eq_next_cases hstep
  · rwa [h.next_nil _ hp]
  · rw [h.next_reset _ hp]
    exact History.holds_of_empty rfl
  · cases hw : decode w with
    | error e =>
      rw [runWord_error hw] at hrun
      cases hrun
      rwa [h.next_noCommand _ hp hw]
    | ok i =>
      rw [runWord_ok hw] at hrun
      obtain ⟨r, hr, hnext⟩ := exec_history (s := { s with port := rest, din := din }) hs.regs hh hrun
      rwa [h.next_command hp hw hr]

/-- Settles O42: every step keeps R118, and nothing is unread at reset. -/
theorem fifoOrderKept : Obligations.FifoOrderKept :=
  ⟨fun _ _ _ hs hh hstep => step_history hs hh hstep, fun _ _ => History.holds_of_empty rfl⟩

end Sys2Proof.Machine

namespace Sys2Proof.Machine

/-! ## What the cursor commands and RB_WRITE leave unchanged (41_ring_buffer.md R111 to R113, 42_parser.md R135) -/

/-- Settles O23: only `RB_INIT` writes CAP, only it and `P_STREAM` write SKIP, only `RB_WRITE` writes STORE, and no
command writes the rest. -/
theorem cursorCommandsFrame : Obligations.CursorCommandsFrame := by
  intro s t
  refine ⟨fun n h => ?_, fun n h => ?_, fun h => ?_⟩
  all_goals
    obtain ⟨hcap, -, -, hskip, hstore, hparams, hport, hdin⟩ := stateWriters _ s t h
    simp only [reduceCtorEq, imp_false, not_not, false_or, exists_false] at hcap hskip hstore
  · exact ⟨hparams, hstore, hport, hdin⟩
  · exact ⟨hparams, hcap, hskip, hstore, hport, hdin⟩
  · exact ⟨hparams, hcap, hstore, hport, hdin⟩

/-- Settles O24: a rejection changes no register and no byte, and the rule changes COUNT and the bytes it writes. -/
theorem rbWriteFrame : Obligations.RbWriteFrame := by
  intro s t h
  obtain ⟨-, rfl⟩ | ⟨-, u, r, hrule, rfl⟩ := exec_eq_next_cases h
  · exact ⟨rfl, rfl, rfl, rfl, rfl, rfl, fun _ _ => rfl⟩
  · obtain ⟨hu, -, hbytes⟩ := rbWrite_frame hrule
    rw [hu]
    exact ⟨rfl, rfl, rfl, rfl, rfl, rfl, hbytes⟩

/-! ## RB_INIT and RB_WRITE (R111, R112) -/

/-- A command that takes no DIN refuses one (R64 check 3). -/
theorem exec_of_din_not_allowed {i : Instr} {s : State} (hi : i.dinMustBeEmpty = true) (h : s.din ≠ []) :
    exec i s = .next (s.deliver (Result.error .invalidArg)) :=
  exec_rejected fun hwf => h (hwf.1 hi)

theorem exec_rbInit_legal {n : Word} {s : State} (hdin : s.din = []) (hn : badCapacity n s = false) :
    exec (.rbInit n) s = .next ((initRing n s).deliver { status := .ok }) :=
  exec_of_ruleOf (wellFormed_of_din_nil hdin _) (by simp [ruleOf, hn])

theorem exec_rbInit_refused {n : Word} {s : State} (hn : badCapacity n s = true) :
    exec (.rbInit n) s = .next (s.deliver (Result.error .invalidArg)) := by
  by_cases hwf : WellFormed s.params (.rbInit n) s.din
  · exact exec_of_ruleOf hwf (by simp [ruleOf, hn])
  · exact exec_rejected hwf

/-- Settles O34: admission refuses a DIN, and the rule refuses exactly the capacities outside `1 .. RB_MEM_SIZE`. -/
theorem rbInitResult : Obligations.RbInitResult := by
  refine ⟨fun n => decode_encode (.rbInit n), fun n s => ⟨fun hdin hzero hle => ?_, fun hbad => ?_⟩⟩
  · exact exec_rbInit_legal hdin (by simpa [badCapacity, hle] using hzero)
  · obtain hdin | hcap := hbad
    · exact exec_of_din_not_allowed rfl hdin
    · exact exec_rbInit_refused (by simpa [badCapacity] using hcap)

/-- The write loop reaches no unread byte: the bytes it writes fit behind them. -/
theorem RingWritten.keeps_unreadByte {s t : State} {bs : List Byte} (hw : RingWritten s t s.count.toNat bs)
    (hfit : s.count.toNat + bs.length ≤ s.cap.toNat) {i : Nat} (hi : i < s.count.toNat) :
    Memory.get? t.store (ringIndex s i) = s.unreadByte i := by
  refine hw.others _ fun j hj he => ?_
  have := ringIndex_inj (s := s) (by omega) (by omega) he
  omega

/-- Settles O35: the write loop stores the bytes that fit and touches no other index; admission refuses a DIN that is
too long. -/
theorem rbWriteResult : Obligations.RbWriteResult := by
  refine ⟨decode_encode .rbWrite, fun s => ⟨fun hs hdin => ?_, fun h => exec_of_din_too_long h⟩⟩
  obtain ⟨t, hrule, hw⟩ := rbWrite_spec hs.regs
  have hlen : (s.din.take (writeLength s)).length = writeLength s := by simp [writeLength_le_din]
  have hindex : ∀ i, ringIndex s (s.count.toNat + i) = (s.rd.toNat + s.count.toNat + i) % s.cap.toNat := fun i => by
    rw [ringIndex, Nat.add_assoc]
  refine ⟨writeLength s, t.store, rfl, exec_of_ruleOf (i := .rbWrite) ⟨nofun, hdin⟩ hrule, fun i hi => ?_,
    fun a ha => hw.others a fun i hi => ?_,
    fun i hi => hw.keeps_unreadByte (hlen.symm ▸ count_add_writeLength_le hs.regs) hi⟩
  · rw [← hindex, hw.written i (hlen.symm ▸ hi), ← List.getElem?_eq_getElem, List.getElem?_take_of_lt hi]
  · rw [hindex]
    exact ha i (hlen ▸ hi)

/-! ## RB_READ and RB_PEEK (R113, R114) -/

/-- The record of `RB_READ` and `RB_PEEK` with the bytes `out`. -/
def Result.bytes (out : List Byte) : Result where
  status := .ok
  value := BitVec.ofNat 32 out.length
  dout := out

/-- In a state with the unread bytes `l` the reading rule returns the first `N` of them. -/
theorem readOut_readLength {s : State} {l : List Byte} (hs : s.RegsLegal) (hl : s.Unread l) (n : Word) (after : State) :
    readLength n s = (l.take n.toNat).length ∧
      readOut (readLength n s) s after = .ok (after, Result.bytes (l.take n.toNat)) := by
  have hlen : readLength n s = (l.take n.toNat).length := by rw [readLength, List.length_take, hl.1]
  have htake : l.take (readLength n s) = l.take n.toNat := by rw [hlen, List.length_take, ← List.take_eq_take_min]
  refine ⟨hlen, ?_⟩
  rw [readOut_spec hs hl (k := readLength n s) (Nat.min_le_right _ _), htake, hlen]
  rfl

theorem exec_rbRead_bytes {s : State} {l : List Byte} (hs : s.RegsLegal) (hl : s.Unread l) (n : Word)
    (hdin : s.din = []) :
    exec (.rbRead n) s = .next ((discard s (l.take n.toNat).length).deliver (Result.bytes (l.take n.toNat))) := by
  obtain ⟨hlen, hrule⟩ := readOut_readLength hs hl n (discard s (readLength n s))
  rw [← hlen]
  exact exec_of_ruleOf (i := .rbRead n) (wellFormed_of_din_nil hdin _) hrule

theorem exec_rbPeek_bytes {s : State} {l : List Byte} (hs : s.RegsLegal) (hl : s.Unread l) (n : Word)
    (hdin : s.din = []) : exec (.rbPeek n) s = .next (s.deliver (Result.bytes (l.take n.toNat))) := by
  obtain ⟨-, hrule⟩ := readOut_readLength hs hl n s
  exact exec_of_ruleOf (i := .rbPeek n) (wellFormed_of_din_nil hdin _) hrule

/-- The bytes that `RB_READ N` and `RB_PEEK N` return: `min(N, COUNT)` of them, from index `RD` on. -/
theorem State.Unread.take_spec {s : State} {l : List Byte} (hl : s.Unread l) (n : Nat) :
    (l.take n).length = min n s.count.toNat ∧
      ∀ i < (l.take n).length, Memory.get? s.store ((s.rd.toNat + i) % s.cap.toNat) = (l.take n)[i]? := by
  obtain ⟨hlen, hbyte⟩ := hl
  refine ⟨by rw [List.length_take, hlen], fun i hi => ?_⟩
  rw [List.length_take] at hi
  rw [List.getElem?_take_of_lt (by omega)]
  exact hbyte i (by omega)

/-- Settles O36, on the sequence of unread bytes. -/
theorem rbReadResult : Obligations.RbReadResult := by
  refine ⟨fun n => decode_encode (.rbRead n),
    fun n s => ⟨fun hs hdin => ?_, fun hdin => exec_of_din_not_allowed rfl hdin⟩⟩
  obtain ⟨l, hl⟩ := hs.exists_unread
  obtain ⟨hlen, hbytes⟩ := hl.take_spec n.toNat
  exact ⟨l.take n.toNat, hlen, hbytes, exec_rbRead_bytes hs.regs hl n hdin⟩

/-- Settles O37: the peek leaves the unread bytes and the empty DIN, so a second peek and a read find them again. -/
theorem rbPeekResult : Obligations.RbPeekResult := by
  refine ⟨fun n => decode_encode (.rbPeek n),
    fun n s => ⟨fun hs hdin => ?_, fun hdin => exec_of_din_not_allowed rfl hdin⟩⟩
  obtain ⟨l, hl⟩ := hs.exists_unread
  obtain ⟨hlen, hbytes⟩ := hl.take_spec n.toNat
  have hpeek := exec_rbPeek_bytes hs.regs hl n hdin
  generalize ht : s.deliver (Result.bytes (l.take n.toNat)) = t at hpeek
  have hs' : t.RegsLegal := ht ▸ hs.regs
  have hl' : t.Unread l := ht ▸ hl
  have hdin' : t.din = [] := ht ▸ hdin
  exact ⟨l.take n.toNat, t, _, hlen, hbytes, ht.symm, hpeek, exec_rbPeek_bytes hs' hl' n hdin',
    exec_rbRead_bytes hs' hl' n hdin', rfl⟩

/-! ## RB_AVAIL and RB_FREE (R115 to R117) -/

theorem exec_rbAvail {s : State} (hdin : s.din = []) :
    exec .rbAvail s = .next (s.deliver { status := .ok, value := s.count }) :=
  exec_of_ruleOf (wellFormed_of_din_nil hdin _) rfl

theorem exec_rbFree {s : State} (hdin : s.din = []) :
    exec .rbFree s = .next (s.deliver { status := .ok, value := BitVec.ofNat 32 (freeSpace s) }) :=
  exec_of_ruleOf (wellFormed_of_din_nil hdin _) rfl

/-- Settles O38: the rule answers with COUNT, and admission refuses a DIN. -/
theorem rbAvailResult : Obligations.RbAvailResult :=
  ⟨decode_encode .rbAvail, fun _ => ⟨exec_rbAvail, exec_of_din_not_allowed rfl⟩⟩

/-- The free space fits its register, and `CAP - COUNT` does not underflow (R31). -/
theorem freeSpace_add_count {s : State} (hs : s.RegsLegal) :
    (BitVec.ofNat 32 (freeSpace s)).toNat + s.count.toNat = s.cap.toNat := by
  obtain ⟨-, -, -, hcount⟩ := hs
  have hcap := s.cap.isLt
  rw [toNat_ofNat_word (by rw [freeSpace]; omega), freeSpace]
  omega

/-- Settles O39: the rule answers with the free space, and admission refuses a DIN. -/
theorem rbFreeResult : Obligations.RbFreeResult :=
  ⟨decode_encode .rbFree, fun _ =>
    ⟨fun hs hdin => ⟨_, freeSpace_add_count hs.regs, exec_rbFree hdin⟩, exec_of_din_not_allowed rfl⟩⟩

/-- A step at the word of `RB_AVAIL` delivers COUNT (R115). -/
theorem step_rbAvail {s : State} {rest : List PortEvent} (hp : s.port = .command 0x2400000000000000 [] :: rest) :
    step s = .next (State.deliver { s with port := rest, din := [] } { status := .ok, value := s.count }) :=
  (stepRunsDecodedCommand s _ _ _ _ hp rbAvailResult.1).trans (exec_rbAvail rfl)

/-- A step at the word of `RB_FREE` delivers the free space (R116). -/
theorem step_rbFree {s : State} {rest : List PortEvent} (hp : s.port = .command 0x2500000000000000 [] :: rest) :
    step s = .next (State.deliver { s with port := rest, din := [] }
      { status := .ok, value := BitVec.ofNat 32 (freeSpace s) }) :=
  (stepRunsDecodedCommand s _ _ _ _ hp rbFreeResult.1).trans (exec_rbFree rfl)

/-- Settles O40: the first step keeps CAP and COUNT, so the second delivers the free space beside the COUNT that the first
delivered. -/
theorem availPlusFreeIsCapacity : Obligations.AvailPlusFreeIsCapacity := by
  intro s rest hs hp
  have havail := step_rbAvail hp
  have hfree := step_rbFree (rest := rest) (s := State.deliver
    { s with port := .command 0x2500000000000000 [] :: rest, din := [] } { status := .ok, value := s.count }) rfl
  have hsum := freeSpace_add_count hs.regs
  rw [Nat.add_comm] at hsum
  exact ⟨_, _, { status := .ok, value := s.count }, { status := .ok, value := BitVec.ofNat 32 (freeSpace s) }, havail,
    hfree, List.append_assoc _ _ _, rfl, rfl, hsum⟩

end Sys2Proof.Machine

namespace Sys2Proof.Machine

/-! ## The gates of FrameCheck (42_parser.md R130) -/

/-- Gate 1 on a buffer that is not empty. -/
theorem frameCheck_noSync {b : List Byte} (hne : b ≠ []) (hs : ¬∃ rest, b = SYNC0 :: SYNC1 :: rest) :
    frameCheck b = .error .noSync := by
  have hsync : syncAtStart b = false := by rwa [← Bool.not_eq_true, syncAtStart_iff]
  simp [frameCheck, hne, hsync]

/-- Gate 2: the LENGTH field is not there. -/
theorem frameCheck_short {b : List Byte} (hs : ∃ rest, b = SYNC0 :: SYNC1 :: rest) (h : b.length < 5) :
    frameCheck b = .error .badLength := by
  have hsync := (syncAtStart_iff b).mpr hs
  have hne : b ≠ [] := by
    rintro rfl
    cases hsync
  rw [frameCheck, hsync]
  simp [hne, h]

/-- Gate 2: LENGTH is out of range, or beyond the buffer. -/
theorem frameCheck_badLength {b : List Byte} (hs : ∃ rest, b = SYNC0 :: SYNC1 :: rest) (h5 : 5 ≤ b.length)
    (h : (lengthField b).toNat < 9 ∨ 1033 < (lengthField b).toNat ∨ b.length < (lengthField b).toNat) :
    frameCheck b = .error .badLength := by
  have hgate : (lengthOutOfRange (lengthField b).toNat || decide (b.length < (lengthField b).toNat)) = true := by
    rwa [Bool.or_eq_true, lengthOutOfRange_iff, decide_eq_true_eq, or_assoc]
  have hne : b ≠ [] := List.ne_nil_of_length_pos (by omega)
  rw [frameCheck, hgate, (syncAtStart_iff b).mpr hs]
  simp [hne]

/-- Gates 3 and 4, where LENGTH is legal and inside the buffer: the checksum over LENGTH bytes, then VERSION. -/
theorem frameCheck_of_length_legal {b : List Byte} (hs : ∃ rest, b = SYNC0 :: SYNC1 :: rest) (h5 : 5 ≤ b.length)
    (hmin : 9 ≤ (lengthField b).toNat) (hmax : (lengthField b).toNat ≤ 1033)
    (hfits : (lengthField b).toNat ≤ b.length) :
    frameCheck b =
      if crcOk (b.take (lengthField b).toNat) = false then .error .badCrc
      else if (byteAt b 2).toNat % 16 ≠ 1 then .error .badVersion
      else .ok (extractFrame b (lengthField b)) := by
  have hrange : lengthOutOfRange (lengthField b).toNat = false := by
    rw [← Bool.not_eq_true, lengthOutOfRange_iff]
    omega
  have hempty : b.length ≠ 0 := by omega
  have hslice : slice b 0 (lengthField b).toNat = b.take (lengthField b).toNat := List.drop_zero
  simp only [frameCheck, hempty, (syncAtStart_iff b).mpr hs, hrange, not_lt.mpr h5, not_lt.mpr hfits, hslice, ne_eq,
    versionOf_eq_VERSION_iff, bne_iff_ne, decide_false, Bool.or_self, Bool.not_true, Bool.not_eq_true',
    Bool.false_eq_true, if_false]

/-- The record that R130 extracts from the first `hi * 256 + lo` bytes. -/
theorem extractFrame_be16 (b : List Byte) (hi lo : Byte) :
    extractFrame b (be16 hi lo) = {
      flags := b.getD 2 0
      totalLength := BitVec.ofNat 16 (hi.toNat * 256 + lo.toNat)
      sequence := b.getD 5 0
      frameType := b.getD 6 0
      payload := (b.take (hi.toNat * 256 + lo.toNat - 2)).drop 7
      checksum := BitVec.ofNat 16 ((b.getD (hi.toNat * 256 + lo.toNat - 2) 0).toNat * 256 +
        (b.getD (hi.toNat * 256 + lo.toNat - 1) 0).toNat) } := by
  rw [extractFrame, be16_toNat, be16_eq_ofNat, be16_eq_ofNat]
  rfl

/-- Settles O43, gate by gate. -/
theorem frameCheckGates : Obligations.FrameCheckGates := by
  refine ⟨rfl, fun b => frameCheck_noSync,
    fun rest h => frameCheck_short ⟨rest, rfl⟩ (by simp only [List.length_cons]; omega), ?_⟩
  intro fl hi lo rest b L
  have hs : ∃ tail, b = SYNC0 :: SYNC1 :: tail := ⟨_, rfl⟩
  have h5 : 5 ≤ b.length := by simp [b]
  have hfield : lengthField b = be16 hi lo := rfl
  have hL : (lengthField b).toNat = L := be16_toNat hi lo
  refine ⟨fun h => frameCheck_badLength hs h5 (by rwa [hL]), fun hmin hmax hfits => ?_⟩
  have hgates := frameCheck_of_length_legal hs h5 (hL ▸ hmin) (hL ▸ hmax) (hL ▸ hfits)
  rw [hL, hfield, extractFrame_be16] at hgates
  have hfl : byteAt b 2 = fl := rfl
  rw [hfl] at hgates
  refine ⟨fun hcrc => ?_, fun hcrc hver => ?_, fun hcrc hver => ?_⟩
  · rw [hgates, if_pos hcrc]
  · rw [hgates, if_neg (by simp [hcrc]), if_pos hver]
  · rw [hgates, if_neg (by simp [hcrc]), if_neg (not_not.mpr hver)]
    rfl

/-! ## The flat-buffer commands and P_SKIPCNT (R131 to R133, R140) -/

/-- A command whose rule is a flat parse of its operand: what it makes of the frame, the failing gate's status with the
defaults, or the refusal of an operand that is too long. -/
theorem exec_flatParse {i : Instr} {g : Frame → Result} (hdin : i.dinMustBeEmpty = false)
    (hrule : ∀ s, ruleOf i s = .ok (s, flatResult s.din g)) (s : State) :
    (s.din.length ≤ s.params.maxInputLen →
      (∀ f, frameCheck s.din = .ok f → exec i s = .next (s.deliver (g f))) ∧
      (∀ st, frameCheck s.din = .error st → exec i s = .next (s.deliver (Result.error st)))) ∧
    (s.params.maxInputLen < s.din.length → exec i s = .next (s.deliver (Result.error .invalidArg))) := by
  refine ⟨fun hlen => ?_, exec_of_din_too_long⟩
  have hrun : exec i s = .next (s.deliver (flatResult s.din g)) :=
    exec_of_ruleOf ⟨fun hno => by simp [hdin] at hno, hlen⟩ (hrule s)
  constructor
  · intro f hf
    rw [hrun, flatResult, hf]
  · intro st hst
    rw [hrun, flatResult, hst]

/-- Settles O44: the flat parse that answers with the frame. -/
theorem pParseResult : Obligations.PParseResult :=
  ⟨decode_encode .pParse, exec_flatParse rfl fun _ => rfl⟩

/-- Settles O45: the flat parse that answers with 1. -/
theorem pValidateResult : Obligations.PValidateResult :=
  ⟨decode_encode .pValidate, exec_flatParse rfl fun _ => rfl⟩

/-- Settles O46: the flat parse that answers with the payload. -/
theorem pExtractResult : Obligations.PExtractResult :=
  ⟨decode_encode .pExtract, exec_flatParse rfl fun _ => rfl⟩

/-- Settles O53: the rule answers with SKIP, and admission refuses a DIN. -/
theorem pSkipcntResult : Obligations.PSkipcntResult :=
  ⟨decode_encode .pSkipcnt, fun _ =>
    ⟨fun hdin => exec_of_ruleOf (wellFormed_of_din_nil hdin .pSkipcnt) rfl, exec_of_din_not_allowed rfl⟩⟩

end Sys2Proof.Machine

namespace Sys2Proof.Machine

/-! ## P_STREAM on the sequence of unread bytes (42_parser.md R134, R135) -/

/-- In a state with the unread bytes `l`, `P_STREAM` ends with the outcome of `seqStream` on `l` (R134, R135). -/
theorem exec_pStream {s : State} {l : List Byte} (hs : s.RegsLegal) (hl : s.Unread l) (hdin : s.din = []) :
    exec .pStream s =
      .next (((seqStream s.cap.toNat l).apply s).deliver (seqStream s.cap.toNat l).record) :=
  exec_of_ruleOf (wellFormed_of_din_nil hdin .pStream) (pStream_spec hs hl).1

/-- Settles O48: the rule does what `seqStream` says, and admission refuses a DIN. -/
theorem pStreamResult : Obligations.PStreamResult :=
  ⟨decode_encode .pStream, fun _ =>
    ⟨fun _ hs hl hdin => exec_pStream hs.regs hl hdin, exec_of_din_not_allowed rfl⟩⟩

/-- The unread bytes fit the buffer. -/
theorem State.Unread.length_le_cap {s : State} {l : List Byte} (hl : s.Unread l) (hs : s.RegsLegal) :
    l.length ≤ s.cap.toNat := by
  obtain ⟨-, -, -, hcount⟩ := hs
  rwa [hl.1]

/-- `P_STREAM` removes the oldest bytes, whatever it answers. -/
theorem State.Unread.stream {s : State} {l : List Byte} (hl : s.Unread l) (hs : s.RegsLegal) (o : StreamOutcome) :
    (o.apply s).Unread (l.drop o.removed) := hl.discard hs _

theorem State.Inv.stream {s : State} (hs : s.Inv) (o : StreamOutcome) : (o.apply s).Inv := hs.discard _

/-- An outcome that removes nothing changes nothing. -/
theorem StreamOutcome.apply_of_nothing {o : StreamOutcome} {s : State} (hs : s.RegsLegal) (hr : o.removed = 0)
    (hn : o.noise = 0) : o.apply s = s := by
  rw [StreamOutcome.apply, hr, hn, discard_zero hs]
  simp

/-! ## Progress (R136) -/

/-- With a sync pattern at the head, after `k` noise bytes: at least the two sync bytes are removed, or nothing is and
the buffer is not full. -/
theorem seqStreamHead_progress {cap k : Nat} {h : List Byte} (hle : h.length ≤ cap) :
    (seqStreamHead cap k h).noise = k ∧
      (k + 2 ≤ (seqStreamHead cap k h).removed ∨ (seqStreamHead cap k h).removed = k ∧ h.length < cap) := by
  unfold seqStreamHead
  generalize (be16 (byteAt h 3) (byteAt h 4)).toNat = L
  split_ifs with hshort hfull hrange hpartial
  · exact ⟨rfl, .inl le_rfl⟩
  · exact ⟨rfl, .inr ⟨rfl, by omega⟩⟩
  · exact ⟨rfl, .inl le_rfl⟩
  · exact ⟨rfl, .inr ⟨rfl, by omega⟩⟩
  · cases frameCheck (h.take L) with
    | error st => exact ⟨rfl, .inl le_rfl⟩
    | ok f => exact ⟨rfl, .inl (by simp only; omega)⟩

/-- A scan that finds no sync pattern leaves at most a lone sync byte, and that only where there is room behind it. -/
theorem seqScan_progress {cap : Nat} {l : List Byte} (hcap : 1 ≤ cap) (hf : (seqScan cap l).1 = false) :
    1 ≤ (seqScan cap l).2 ∨ l.length < cap := by
  match l with
  | [] => exact .inr hcap
  | [b] =>
    by_cases hb : b = SYNC0 ∧ cap ≠ 1
    · exact .inr (by rw [List.length_singleton]; omega)
    · exact .inl (by simp [seqScan, hb])
  | b0 :: b1 :: rest =>
    by_cases hb : b0 = SYNC0 ∧ b1 = SYNC1
    · simp [seqScan, hb] at hf
    · exact .inl (by simp [seqScan, hb])

/-- `P_STREAM` removes a byte or more, or the buffer is not full; the noise is among the bytes removed. -/
theorem seqStream_progress {cap : Nat} {l : List Byte} (hcap : 1 ≤ cap) (hle : l.length ≤ cap) :
    (seqStream cap l).noise ≤ (seqStream cap l).removed ∧
      (1 ≤ (seqStream cap l).removed ∨ l.length < cap) := by
  unfold seqStream
  cases hf : (seqScan cap l).1 with
  | false => exact ⟨le_rfl, seqScan_progress hcap hf⟩
  | true =>
    generalize (seqScan cap l).2 = k
    obtain ⟨hnoise, hremoved⟩ := seqStreamHead_progress (k := k) (h := l.drop k) (cap := cap)
      (by rw [List.length_drop]; omega)
    rw [List.length_drop] at hremoved
    simp only [if_true]
    omega

/-- A `P_STREAM` that removes nothing and skips nothing only delivers its record. -/
theorem exec_pStream_of_nothing {s : State} {l : List Byte} (hs : s.RegsLegal) (hl : s.Unread l) (hdin : s.din = [])
    (hr : (seqStream s.cap.toNat l).removed = 0) (hn : (seqStream s.cap.toNat l).noise = 0) :
    exec .pStream s = .next (s.deliver (seqStream s.cap.toNat l).record) := by
  rw [exec_pStream hs hl hdin, StreamOutcome.apply_of_nothing hs hr hn]

/-- Settles O49: the value is the number of bytes removed; where it is 0 nothing is removed or skipped, so the next
`P_STREAM` finds the same bytes. -/
theorem pStreamProgress : Obligations.PStreamProgress := by
  intro s t r hs hdin hrun hres
  obtain ⟨l, hl⟩ := hs.exists_unread
  rw [exec_pStream hs.regs hl hdin] at hrun
  cases hrun
  have hr : (seqStream s.cap.toNat l).record = r := by simpa [StreamOutcome.apply] using hres
  subst hr
  have hvalue : (seqStream s.cap.toNat l).record.value.toNat = (seqStream s.cap.toNat l).removed :=
    toNat_ofNat_word (by have := (pStream_spec hs.regs hl).2; have := hl.1; have := s.count.isLt; omega)
  obtain ⟨hnoise, hprogress⟩ := seqStream_progress hs.regs.1 (hl.length_le_cap hs.regs)
  refine ⟨fun hfull => ?_, fun _ hzero => ?_⟩
  · have hlen : l.length = s.cap.toNat := by rw [hl.1, hfull]
    omega
  · have hremoved : (seqStream s.cap.toNat l).removed = 0 := by rw [← hvalue, hzero]; rfl
    have hskipped : (seqStream s.cap.toNat l).noise = 0 := by omega
    rw [StreamOutcome.apply_of_nothing hs.regs hremoved hskipped]
    exact ⟨rfl, exec_pStream_of_nothing (s := s.deliver _) hs.regs hl hdin hremoved hskipped⟩

/-! ## What stands at the head (R135, R137) -/

/-- Scan passes over noise that holds no sync byte, up to the sync pattern behind it (R134). -/
theorem seqScan_noise (cap : Nat) {noise h : List Byte} (hnoise : SYNC0 ∉ noise)
    (hs : ∃ tail, h = SYNC0 :: SYNC1 :: tail) : seqScan cap (noise ++ h) = (true, noise.length) := by
  obtain ⟨tail, rfl⟩ := hs
  induction noise with
  | nil => simp [seqScan]
  | cons b noise ih =>
    have hb : b ≠ SYNC0 := (List.ne_of_not_mem_cons hnoise).symm
    have ih := ih (List.not_mem_of_not_mem_cons hnoise)
    cases noise with
    | nil => simp [seqScan, hb]
    | cons c noise =>
      rw [List.cons_append] at ih
      simp [seqScan, hb, ih]

theorem seqStream_noise (cap : Nat) {noise h : List Byte} (hnoise : SYNC0 ∉ noise)
    (hs : ∃ tail, h = SYNC0 :: SYNC1 :: tail) :
    seqStream cap (noise ++ h) = seqStreamHead cap noise.length h := by
  simp [seqStream, seqScan_noise cap hnoise hs]

theorem seqStream_sync (cap : Nat) {h : List Byte} (hs : ∃ tail, h = SYNC0 :: SYNC1 :: tail) :
    seqStream cap h = seqStreamHead cap 0 h :=
  seqStream_noise cap List.not_mem_nil hs

/-- How `P_STREAM` ends by the answer of the gates on the `n` bytes of a whole frame, after `k` noise bytes (R135). -/
def StreamOutcome.ofGates (k n : Nat) : Except Status Frame → StreamOutcome
  | .error st => ⟨k, k + 2, st, none⟩
  | .ok f => ⟨k, k + n, .ok, some f⟩

/-- With a legal LENGTH at the head that fits the buffer, `P_STREAM` waits for that many bytes and runs the gates on
them. -/
theorem seqStreamHead_of_length_legal {cap : Nat} (k : Nat) {h : List Byte} (h5 : 5 ≤ h.length)
    (hmin : 9 ≤ (lengthField h).toNat) (hmax : (lengthField h).toNat ≤ 1033) (hcap : (lengthField h).toNat ≤ cap) :
    seqStreamHead cap k h =
      if h.length < (lengthField h).toNat then ⟨k, k, .needMoreData, none⟩
      else StreamOutcome.ofGates k (lengthField h).toNat (frameCheck (h.take (lengthField h).toNat)) := by
  have hfield : be16 (byteAt h 3) (byteAt h 4) = lengthField h := rfl
  rw [seqStreamHead, hfield, if_neg (not_lt.mpr h5), if_neg (by omega)]
  cases frameCheck (h.take (lengthField h).toNat) with
  | error st => rfl
  | ok f => rfl

/-- The LENGTH field of a buffer does not depend on what comes behind it. -/
theorem lengthField_append {w : List Byte} (h5 : 5 ≤ w.length) (rest : List Byte) :
    lengthField (w ++ rest) = lengthField w := by
  simp only [lengthField, byteAt, List.getD_append _ _ _ _ (show 3 < w.length by omega),
    List.getD_append _ _ _ _ (show 4 < w.length by omega)]

/-- A frame that is there whole, with anything behind it. -/
theorem seqStreamHead_whole {cap : Nat} (k : Nat) {w : List Byte} (rest : List Byte)
    (hlen : w.length = (lengthField w).toNat) (hmin : 9 ≤ w.length) (hmax : w.length ≤ 1033) (hcap : w.length ≤ cap) :
    seqStreamHead cap k (w ++ rest) = StreamOutcome.ofGates k w.length (frameCheck w) := by
  have hfield : (lengthField (w ++ rest)).toNat = w.length := by rw [lengthField_append (by omega), hlen]
  rw [seqStreamHead_of_length_legal k (by rw [List.length_append]; omega) (by omega) (by omega) (by omega), hfield,
    if_neg (by simp), List.take_left]

/-- A whole frame at the head with a wrong checksum costs its two sync bytes. -/
theorem seqStream_badCrc {cap : Nat} {b : List Byte} (rest : List Byte) (hs : ∃ tail, b = SYNC0 :: SYNC1 :: tail)
    (hlen : b.length = (lengthField b).toNat) (hmin : 9 ≤ b.length) (hmax : b.length ≤ 1033) (hcap : b.length ≤ cap)
    (hcrc : crcOk b = false) : seqStream cap (b ++ rest) = ⟨0, 2, .badCrc, none⟩ := by
  have hcheck : frameCheck b = .error .badCrc := by
    rw [frameCheck_of_length_legal hs (by omega) (by omega) (by omega) (by omega), ← hlen, List.take_length,
      if_pos hcrc]
  have hsync : ∃ tail, b ++ rest = SYNC0 :: SYNC1 :: tail := by
    obtain ⟨tail, rfl⟩ := hs
    exact ⟨tail ++ rest, rfl⟩
  rw [seqStream_sync cap hsync, seqStreamHead_whole 0 rest hlen hmin hmax hcap, hcheck]
  rfl

/-- Settles O52: the outcome is a wait that removes nothing. -/
theorem partialFrameIsLeft : Obligations.PartialFrameIsLeft := by
  intro s fl hi lo body hs hdin hl hmin hmax hcap hpartial
  generalize hh : 0xAA :: 0x55 :: fl :: hi :: lo :: body = h at hl
  have hL : (lengthField h).toNat = hi.toNat * 256 + lo.toNat := hh ▸ be16_toNat hi lo
  have hlen : h.length = body.length + 5 := by rw [← hh]; rfl
  have hout : seqStream s.cap.toNat h = ⟨0, 0, .needMoreData, none⟩ := by
    rw [seqStream_sync _ ⟨_, hh.symm⟩,
      seqStreamHead_of_length_legal 0 (by omega) (by omega) (by omega) (by omega), if_pos (by omega)]
  have hrun := exec_pStream_of_nothing hs.regs hl hdin (by rw [hout]) (by rw [hout])
  rwa [hout] at hrun

/-- Settles O50: Scan passes over the noise, and the frame behind it is there whole. -/
theorem frameAfterNoiseIsReturned : Obligations.FrameAfterNoiseIsReturned := by
  intro s noise w rest f hs hdin hl hnoise hf hlen
  obtain ⟨⟨tail, hsync⟩, -, hmin, hmax, -, -, -, rfl⟩ := frameCheck_eq_ok hf
  have hlen' : w.length = (lengthField w).toNat := hlen
  have hcap := hl.length_le_cap hs.regs
  rw [List.length_append, List.length_append] at hcap
  have hout : seqStream s.cap.toNat (noise ++ w ++ rest) =
      ⟨noise.length, noise.length + w.length, .ok, some (extractFrame w (lengthField w))⟩ := by
    rw [List.append_assoc, seqStream_noise _ hnoise ⟨tail ++ rest, by rw [hsync]; rfl⟩,
      seqStreamHead_whole _ rest hlen' (by omega) (by omega) (by omega), hf]
    rfl
  have hdrop : (noise ++ w ++ rest).drop (noise.length + w.length) = rest := by
    rw [← List.length_append, List.drop_left]
  have hread := hl.stream hs.regs (seqStream s.cap.toNat (noise ++ w ++ rest))
  have hrun := exec_pStream hs.regs hl hdin
  generalize seqStream s.cap.toNat (noise ++ w ++ rest) = o at hout hread hrun
  subst hout
  rw [hdrop] at hread
  exact ⟨_, hrun, hread, rfl, rfl⟩

/-- Settles O51: the gates refuse the corrupt frame, and its other bytes are noise without a sync byte before `w`. -/
theorem frameAfterCorruptFrameIsReturned : Obligations.FrameAfterCorruptFrameIsReturned := by
  intro s fl hi lo body w rest f hs hdin hl hlen hmin hmax hcrc hnoise hf hw
  have hcap := hl.length_le_cap hs.regs
  simp only [List.length_append, List.length_cons] at hcap
  rw [List.append_assoc] at hl
  have hout : seqStream s.cap.toNat ((0xAA :: 0x55 :: fl :: hi :: lo :: body) ++ (w ++ rest)) =
      ⟨0, 2, .badCrc, none⟩ :=
    seqStream_badCrc _ ⟨_, rfl⟩ (hlen.trans (be16_toNat hi lo).symm) hmin hmax (by simp only [List.length_cons]; omega)
      hcrc
  have hfirst := exec_pStream hs.regs hl hdin
  rw [hout] at hfirst
  generalize ho : (⟨0, 2, .badCrc, none⟩ : StreamOutcome) = o at hfirst
  have hread : (o.apply s).Unread ((fl :: hi :: lo :: body) ++ w ++ rest) := by
    rw [List.append_assoc, ← ho]
    exact hl.stream hs.regs _
  obtain ⟨u, hsecond, hrest, -, hresults⟩ := frameAfterNoiseIsReturned ((o.apply s).deliver o.record)
    (fl :: hi :: lo :: body) w rest f (hs.stream o) hdin hread hnoise hf hw
  refine ⟨_, u, hfirst, hsecond, hrest, ?_⟩
  rw [hresults, ← ho]
  exact List.append_assoc _ _ _

end Sys2Proof.Machine

namespace Sys2Proof.Machine

/-! ## The wire frame (43_builder.md R160) -/

/-- The FLAGS byte on the wire: bits 7:4 as given, VERSION 1 in bits 3:0. -/
theorem wireFlags_eq (flags : Byte) : wireFlags flags = (flags &&& 0xF0) ||| 0x01 := by
  revert flags
  decide

theorem wireFlags_toNat (flags : Byte) : (wireFlags flags).toNat = flags.toNat / 16 * 16 + 1 := by
  revert flags
  decide

/-- FLAGS with VERSION 1 goes on the wire as it is. -/
theorem wireFlags_of_version_one {flags : Byte} (h : flags.toNat % 16 = 1) : wireFlags flags = flags := by
  apply BitVec.eq_of_toNat_eq
  rw [wireFlags_toNat]
  omega

/-- The high byte and the low byte of a number. -/
theorem be16bytes_ofNat (n : Nat) : be16bytes (BitVec.ofNat 16 n) = [BitVec.ofNat 8 (n / 256), BitVec.ofNat 8 n] := by
  have hhigh : (BitVec.ofNat 16 n).extractLsb' 8 8 = BitVec.ofNat 8 (n / 256) := by
    apply BitVec.eq_of_toNat_eq
    rw [BitVec.extractLsb'_toNat, BitVec.toNat_ofNat, BitVec.toNat_ofNat, Nat.shiftRight_eq_div_pow]
    omega
  have hlow : (BitVec.ofNat 16 n).extractLsb' 0 8 = BitVec.ofNat 8 n := by
    apply BitVec.eq_of_toNat_eq
    rw [BitVec.extractLsb'_toNat, BitVec.toNat_ofNat, BitVec.toNat_ofNat, Nat.shiftRight_zero]
    omega
  rw [be16bytes, hhigh, hlow]

/-- The bytes of a frame before its checksum, with the LENGTH the writer computes (`writeFrame_eq`). -/
def wireBody (type seq flags : Byte) (p : List Byte) : List Byte :=
  frameBody type seq flags p (BitVec.ofNat 16 (frameLength p))

/-- The bytes the writer gives where both its checks pass (`writeFrame_eq`). -/
def wireFrame (type seq flags : Byte) (p : List Byte) : List Byte :=
  wireBody type seq flags p ++ be16bytes (crc16 (wireBody type seq flags p))

theorem frameLength_eq (p : List Byte) : frameLength p = 9 + p.length := by
  rw [frameLength, HEADER_SIZE, CRC_SIZE]
  omega

@[simp] theorem wireBody_length (type seq flags : Byte) (p : List Byte) :
    (wireBody type seq flags p).length = 7 + p.length := by
  simp only [wireBody, frameBody, be16bytes, List.length_append, List.length_cons, List.length_nil]

@[simp] theorem wireFrame_length (type seq flags : Byte) (p : List Byte) :
    (wireFrame type seq flags p).length = 9 + p.length := by
  simp only [wireFrame, be16bytes, List.length_append, List.length_cons, List.length_nil, wireBody_length]
  omega

/-- The body, byte by byte. -/
theorem wireBody_eq (type seq flags : Byte) (p : List Byte) :
    wireBody type seq flags p = [0xAA, 0x55, (flags &&& 0xF0) ||| 0x01, BitVec.ofNat 8 ((9 + p.length) / 256),
      BitVec.ofNat 8 (9 + p.length), seq, type] ++ p := by
  rw [wireBody, frameBody, be16bytes_ofNat, frameLength_eq, wireFlags_eq]
  rfl

/-- Behind the body stand the high byte and the low byte of its checksum. -/
theorem wireFrame_eq (type seq flags : Byte) (p : List Byte) :
    wireFrame type seq flags p = wireBody type seq flags p ++
      [BitVec.ofNat 8 ((crc16 (wireBody type seq flags p)).toNat / 256),
        BitVec.ofNat 8 (crc16 (wireBody type seq flags p)).toNat] := by
  rw [wireFrame, ← be16bytes_ofNat, BitVec.ofNat_toNat, BitVec.setWidth_eq]

/-- The writer, in the order of its two checks. -/
theorem writeFrame_eq (type seq flags : Byte) (p : List Byte) (n : Word) :
    writeFrame type seq flags p n =
      if 1024 < p.length then .error .badLength
      else if n.toNat < 9 + p.length then .error .bufferFull
      else .ok (wireFrame type seq flags p) := by
  rw [← frameLength_eq]
  rfl

/-- When the writer gives a frame, and which. -/
theorem writeFrame_eq_ok_iff {type seq flags : Byte} {p w : List Byte} {n : Word} :
    writeFrame type seq flags p n = .ok w ↔
      p.length ≤ 1024 ∧ 9 + p.length ≤ n.toNat ∧ w = wireFrame type seq flags p := by
  rw [writeFrame_eq]
  split_ifs with hlong hfull
  · simp [hlong]
  · simp [hfull]
  · simp [not_lt.mp hlong, not_lt.mp hfull, eq_comm]

/-! ## B_BUILD and B_SERIALIZE (R161, R162) -/

/-- A command whose rule is the writer on the payload at DIN: the two checks in order, the wire frame, or the refusal of
an operand that is too long. -/
theorem exec_writer {i : Instr} {type seq flags : Byte} {n : Word} (hdin : i.dinMustBeEmpty = false)
    (hrule : ∀ s, ruleOf i s = .ok (s, writeResult (writeFrame type seq flags s.din n))) {s : State} {p : List Byte}
    (hp : s.din = p) :
    (s.din.length ≤ s.params.maxInputLen →
      (1024 < p.length → exec i s = .next (s.deliver (Result.error .badLength))) ∧
      (p.length ≤ 1024 → n.toNat < 9 + p.length → exec i s = .next (s.deliver (Result.error .bufferFull))) ∧
      (p.length ≤ 1024 → 9 + p.length ≤ n.toNat → exec i s = .next (s.deliver {
        status := .ok, value := BitVec.ofNat 32 (9 + p.length), dout := wireFrame type seq flags p }))) ∧
    (s.params.maxInputLen < s.din.length → exec i s = .next (s.deliver (Result.error .invalidArg))) := by
  refine ⟨fun hlen => ?_, exec_of_din_too_long⟩
  have hrun : exec i s = .next (s.deliver (writeResult (writeFrame type seq flags p n))) :=
    exec_of_ruleOf ⟨fun hno => by simp [hdin] at hno, hlen⟩ (hp ▸ hrule s)
  refine ⟨fun hlong => ?_, fun hle hfull => ?_, fun hle hfits => ?_⟩
  · rw [hrun, writeFrame_eq, if_pos hlong]
    rfl
  · rw [hrun, writeFrame_eq, if_neg (not_lt.mpr hle), if_pos hfull]
    rfl
  · rw [hrun, writeFrame_eq_ok_iff.mpr ⟨hle, hfits, rfl⟩, writeResult, wireFrame_length]

/-- Settles O54: the writer on the fields of the command, its frame written out byte by byte. -/
theorem bBuildResult : Obligations.BBuildResult := by
  refine ⟨fun ty sq fl n => decode_encode (.bBuild ty sq fl n), fun ty sq fl n s => ?_⟩
  have hrun := exec_writer (i := .bBuild ty sq fl n) rfl (fun _ => rfl) (s := s) rfl
  rwa [wireFrame_eq, wireBody_eq] at hrun

/-- Settles O55: the writer on the fields of the record; its total_length and checksum do not occur. -/
theorem bSerializeResult : Obligations.BSerializeResult := by
  refine ⟨fun ty sq fl n => decode_encode (.bSerialize ty sq fl n), fun f n s hdin => ?_⟩
  have hrun := exec_writer (i := .bSerialize f.frameType f.sequence f.flags n) rfl (fun _ => rfl) hdin
  rwa [wireFrame_eq, wireBody_eq] at hrun

/-! ## The gates on a wire frame (R163) -/

/-- The Frame record that every parse of a wire frame returns (`frameCheck_wireFrame`). -/
def wireRecord (type seq flags : Byte) (p : List Byte) : Frame where
  flags := (flags &&& 0xF0) ||| 0x01
  totalLength := BitVec.ofNat 16 (wireFrame type seq flags p).length
  sequence := seq
  frameType := type
  payload := p
  checksum := be16 ((wireFrame type seq flags p).getD ((wireFrame type seq flags p).length - 2) 0)
    ((wireFrame type seq flags p).getD ((wireFrame type seq flags p).length - 1) 0)

/-- Its checksum is valid. -/
theorem crcOk_wireFrame (type seq flags : Byte) (p : List Byte) : crcOk (wireFrame type seq flags p) = true := by
  refine crcOk_iff_crc16_eq_zero.mpr ⟨by rw [wireFrame_length]; omega, ?_⟩
  exact (crc16_append_pair_eq_zero_iff _ _ _).mpr (be16_extractLsb' _).symm

/-- Its LENGTH field is the record's total_length. -/
theorem lengthField_wireFrame (type seq flags : Byte) (p : List Byte) :
    lengthField (wireFrame type seq flags p) = (wireRecord type seq flags p).totalLength := by
  rw [wireRecord, wireFrame_length, ← frameLength_eq]
  exact be16_extractLsb' _

/-- A payload that the writer takes leaves the length below the 16 bits of LENGTH. -/
theorem wireRecord_totalLength_toNat (type seq flags : Byte) {p : List Byte} (hp : p.length ≤ 1024) :
    (wireRecord type seq flags p).totalLength.toNat = (wireFrame type seq flags p).length := by
  rw [wireRecord, BitVec.toNat_ofNat, wireFrame_length]
  omega

theorem wireRecord_flags (type seq flags : Byte) (p : List Byte) :
    (wireRecord type seq flags p).flags = wireFlags flags := (wireFlags_eq flags).symm

/-- Its payload stands between the header and the checksum. -/
theorem slice_wireFrame (type seq flags : Byte) (p : List Byte) :
    slice (wireFrame type seq flags p) HEADER_SIZE (7 + p.length) = p := by
  rw [slice, wireFrame, ← wireBody_length type seq flags p, List.take_left]
  rfl

/-- What R130 extracts from it. -/
theorem extractFrame_wireFrame {type seq flags : Byte} {p : List Byte} (hp : p.length ≤ 1024) :
    extractFrame (wireFrame type seq flags p) (wireRecord type seq flags p).totalLength =
      wireRecord type seq flags p := by
  have hpayload : (wireFrame type seq flags p).length - CRC_SIZE = 7 + p.length := by
    rw [wireFrame_length, CRC_SIZE]
    omega
  have hflags : byteAt (wireFrame type seq flags p) 2 = (flags &&& 0xF0) ||| 0x01 := wireFlags_eq flags
  rw [extractFrame, wireRecord_totalLength_toNat type seq flags hp, hpayload, slice_wireFrame, hflags]
  rfl

/-- Every gate passes, and the record is extracted. -/
theorem frameCheck_wireFrame {type seq flags : Byte} {p : List Byte} (hp : p.length ≤ 1024) :
    frameCheck (wireFrame type seq flags p) = .ok (wireRecord type seq flags p) := by
  have hlen := wireFrame_length type seq flags p
  have hL : (lengthField (wireFrame type seq flags p)).toNat = (wireFrame type seq flags p).length := by
    rw [lengthField_wireFrame, wireRecord_totalLength_toNat type seq flags hp]
  have hsync : ∃ rest, wireFrame type seq flags p = SYNC0 :: SYNC1 :: rest := ⟨_, rfl⟩
  have hflags : byteAt (wireFrame type seq flags p) 2 = wireFlags flags := rfl
  have hversion : (wireFlags flags).toNat % 16 = 1 := by
    rw [wireFlags_toNat]
    omega
  rw [frameCheck_of_length_legal hsync (by omega) (by omega) (by omega) hL.le, hL, List.take_length,
    crcOk_wireFrame, if_neg (by decide), hflags, if_neg (not_not.mpr hversion), lengthField_wireFrame,
    extractFrame_wireFrame hp]

/-- Settles O56: the record of the wire frame is the frame built, and its checksum is valid. -/
theorem parseInvertsBuild : Obligations.ParseInvertsBuild := by
  intro ty sq fl n s hlegal hp hfits
  obtain ⟨-, -, hmax⟩ := hlegal
  have hlen := wireFrame_length ty sq fl s.din
  obtain ⟨hbuild, -⟩ := exec_writer (i := .bBuild ty sq fl n) rfl (fun _ => rfl) (s := s) rfl
  obtain ⟨-, -, hbuild⟩ := hbuild (by omega)
  have hbuild := hbuild hp hfits
  rw [← hlen] at hbuild
  generalize ht : s.deliver _ = t at hbuild
  have hadmitted : (wireFrame ty sq fl s.din).length ≤ t.params.maxInputLen := by
    rw [← ht, hlen]
    exact le_trans (by omega) hmax
  refine ⟨wireFrame ty sq fl s.din, t, hlen, ht.symm, hbuild, ?_, ?_, fun h => ?_⟩
  · obtain ⟨hparse, -⟩ := (pParseResult.2 { t with din := wireFrame ty sq fl s.din }).1 hadmitted
    rw [← hlen]
    exact hparse _ (frameCheck_wireFrame hp)
  · rw [exec_crcVerify_admitted hadmitted, crcOk_wireFrame]
    rfl
  · rw [← wireFlags_eq, wireFlags_of_version_one h]

/-! ## A wire frame through the ring buffer (R112, R135, R163) -/

/-- `RB_WRITE` of an operand that fits appends all of it to the unread bytes. -/
theorem exec_rbWrite_whole {s : State} {l : List Byte} (hs : s.Inv) (hl : s.Unread l)
    (hdin : s.din.length ≤ s.params.maxInputLen) (hfits : s.din.length ≤ freeSpace s) :
    ∃ t, exec .rbWrite s = .next t ∧ t.Inv ∧ t.Unread (l ++ s.din) ∧ t.skip = s.skip ∧
      t.results = s.results ++ [{ status := .ok, value := BitVec.ofNat 32 s.din.length }] := by
  obtain ⟨t, hrule, hw⟩ := rbWrite_spec hs.regs
  have hall : writeLength s = s.din.length := Nat.min_eq_left hfits
  have hread := hw.unread hl hs.regs
  have hinv := rbWrite_inv hs hrule
  rw [hall] at hrule hread hinv
  rw [List.take_length] at hread
  exact ⟨_, exec_of_ruleOf (i := .rbWrite) ⟨nofun, hdin⟩ hrule, hinv, hread, rfl, rfl⟩

theorem State.unread_nil_iff {s : State} : s.Unread [] ↔ s.count = 0 := by
  rw [← BitVec.toNat_inj]
  refine ⟨fun h => h.1.symm, fun h => ⟨h.symm, fun i hi => ?_⟩⟩
  rw [h] at hi
  exact absurd hi (Nat.not_lt_zero i)

/-- Settles O57: the frame is written whole, and then stands at the head with no noise before it and nothing behind. -/
theorem streamReturnsWrittenFrame : Obligations.StreamReturnsWrittenFrame := by
  intro ty sq fl n p w s hs hw hcount hcap hdin
  obtain ⟨hp, -, rfl⟩ := writeFrame_eq_ok_iff.mp hw
  have hlen := wireFrame_length ty sq fl p
  obtain ⟨-, -, hmax⟩ := hs.paramsLegal
  have hfree : freeSpace s = s.cap.toNat := by rw [freeSpace, hcount]; rfl
  obtain ⟨t, hwrite, hinv, hread, hskip, hresults⟩ :=
    exec_rbWrite_whole hs (State.unread_nil_iff.mpr hcount) (by rw [hdin]; omega) (by rw [hdin, hfree]; exact hcap)
  have htotal := wireRecord_totalLength_toNat ty sq fl hp
  obtain ⟨u, hstream, hrest, hskip', hresults'⟩ :=
    frameAfterNoiseIsReturned { t with din := [] } [] (wireFrame ty sq fl p) [] _ hinv rfl
      (by rw [List.append_nil, ← hdin]; exact hread) List.not_mem_nil (frameCheck_wireFrame hp) htotal.symm
  refine ⟨t, u, wireRecord ty sq fl p, hwrite, hstream, State.unread_nil_iff.mp hrest, ?_, ?_, rfl, htotal, hlen,
    fun h => ?_⟩
  · rw [hskip', ← hskip]
    exact BitVec.add_zero _
  · simp only [hresults', hresults, hdin, List.length_nil, Nat.zero_add, List.append_assoc, List.cons_append,
      List.nil_append]
  · rw [wireRecord_flags, wireFlags_of_version_one h]

end Sys2Proof.Machine

namespace Sys2Proof.Machine

/-! ## Errors change no state (60_exceptions.md R170) -/

/-- A rule other than `P_STREAM`'s that returns an error has changed nothing: of the rules that change state, only
`RB_INIT`'s can fail, on a capacity it refuses. -/
theorem ruleOf_error_eq_self {i : Instr} {s u : State} {r : Result} (h : ruleOf i s = .ok (u, r))
    (hst : r.status ≠ .ok) (hi : i ≠ .pStream) : u = s := by
  cases i with
  | rbInit n =>
    obtain ⟨-, hu, -⟩ | ⟨-, -, rfl⟩ := rbInit_cases h
    · exact hu
    · exact absurd rfl hst
  | rbWrite =>
    obtain ⟨-, rfl, -⟩ := rbWrite_frame h
    exact absurd rfl hst
  | rbRead n =>
    obtain ⟨-, out, -, rfl⟩ := readOut_eq_ok h
    exact absurd rfl hst
  | pStream => exact absurd rfl hi
  | _ => exact ruleOf_eq_self rfl h

/-- Settles O20: a rejection only delivers its record, and so does a rule that returns an error. -/
theorem errorsChangeNoState : Obligations.ErrorsChangeNoState := by
  intro i s t r h hr hst hi
  obtain ⟨-, -, ht⟩ | ⟨-, u, hrule, ht⟩ := exec_record_cases h hr
  · exact ht
  · rw [ht, ruleOf_error_eq_self hrule hst hi, State.deliver]

/-! ## The stateless commands (60_exceptions.md R177) -/

/-- The rule of a stateless command reads DIN alone and leaves the state as it is. -/
theorem ruleOf_stateless {i : Instr} {s t : State} (hi : stateless i = true) (hdin : s.din = t.din) :
    ∃ r, ruleOf i s = .ok (s, r) ∧ ruleOf i t = .ok (t, r) := by
  cases i with
  | crcCompute | crcVerify | pParse | pValidate | pExtract | bBuild | bSerialize =>
    exact ⟨_, rfl, by rw [ruleOf, hdin]⟩
  | _ => cases hi

/-- Settles O27: both states admit the command or neither does, and its rule answers alike. -/
theorem statelessResultsIndependent : Obligations.StatelessResultsIndependent := by
  intro i s t hi hdin hparams
  by_cases hwf : WellFormed s.params i s.din
  · obtain ⟨r, hs, ht⟩ := ruleOf_stateless hi hdin
    exact ⟨r, exec_of_ruleOf hwf hs, exec_of_ruleOf (hparams ▸ hdin ▸ hwf) ht⟩
  · exact ⟨_, exec_rejected hwf, exec_rejected (hparams ▸ hdin ▸ hwf)⟩

end Sys2Proof.Machine

namespace Sys2Proof.Machine

/-! ## Reset, and runs from it (70_reset_and_hazards.md R190, R191, R200) -/

/-- From a state that satisfies the invariant, a run of as many steps as events are pending takes them all and ends
with the invariant: the first step completes, takes its event and keeps the invariant. -/
theorem run_pending_completes {s : State} {es : List PortEvent} (hs : s.Inv) (hp : s.port = es) :
    ∃ t, Host.Core.run Sys2Proof.core es.length s = .next t ∧ t.port = [] ∧ t.Inv := by
  induction es generalizing s with
  | nil => exact ⟨s, rfl, hp, hs⟩
  | cons e rest ih =>
    obtain ⟨u, hstep⟩ := stepAlwaysCompletes s hs
    obtain ⟨hport, -⟩ := step_accepts hp hstep
    rw [List.length_cons, run_succ_next hstep]
    exact ih (stepKeepsInvariant s u hs hstep) hport

/-- Settles O16: the reset state satisfies the invariant, whatever is pending. -/
theorem runsFromResetComplete : Obligations.RunsFromResetComplete := fun p es hp =>
  run_pending_completes (s := { State.resetWith p with port := es }) (resetWith_inv hp) rfl

/-- The capacity `RB_MEM_SIZE` is one that `RB_INIT` accepts (R1, R111). -/
theorem badCapacity_memSize {n : Word} {s : State} (hp : s.params.Legal) (hn : n.toNat = s.params.rbMemSize) :
    badCapacity n s = false :=
  badCapacity_eq_false_iff.mpr ⟨hn ▸ hp.1, hn.le⟩

/-- Settles O10: `RB_MEM_SIZE` fits `CAP`, and `RB_INIT` accepts it as a capacity. -/
theorem resetLeavesEmptyBuffer : Obligations.ResetLeavesEmptyBuffer := by
  refine ⟨fun p hp => ?_, ⟨Config.params, configParams_legal, rfl⟩, fun s u rest n hlegal hport hdin hparams hn => ?_⟩
  · have hcap : (BitVec.ofNat 32 p.rbMemSize).toNat = p.rbMemSize := toNat_ofNat_word (by omega)
    exact ⟨rfl, hcap, rfl, rfl, rfl⟩
  · have hcap : BitVec.ofNat 32 s.params.rbMemSize = n := by rw [← hn, BitVec.ofNat_toNat, BitVec.setWidth_eq]
    have hinit := exec_rbInit_legal hdin (badCapacity_memSize (s := u) (hparams ▸ hlegal) (hparams ▸ hn))
    exact ⟨_, _, step_reset hport, rfl, hcap, rfl, rfl, rfl, hinit, hcap.symm, rfl, rfl, rfl⟩

/-- Settles O11: reset writes none of the ports, and the step has taken its event. -/
theorem resetEventKeepsPorts : Obligations.ResetEventKeepsPorts := by
  intro s t rest hp h
  rw [step_reset hp] at h
  injection h with h
  rw [← h]
  exact ⟨applyReset_port _, applyReset_din _, applyReset_results _⟩

end Sys2Proof.Machine
